-- ==== Sys2Proof/Word.lean ====
section
/-! DEFINITION. The machine word: every register, memory cell, program byte, operand and input value has
8 bits (00_scope.md R4 `XLEN`, R5). -/

namespace Sys2Proof

/-- A byte; bit 0 is the least significant bit, bit 7 the most significant and the sign bit (R5). -/
abbrev Byte := BitVec 8

end Sys2Proof
end

