-- ==== Sys2Proof/Syntax.lean ====
section
/-! DEFINITION. The instruction set as syntax: registers, mnemonics, formats and the 16 instructions of
30_encoding.md R70, one constructor per row of spec/opcode_table.json. -/

namespace Sys2Proof

/-- The five general registers (10_state.md R10); a closed set, so that no invalid tag can select one (R11). -/
inductive Reg where
  | a | b | c | d | e
deriving DecidableEq, Repr

/-- The five instruction formats (30_encoding.md R62). -/
inductive Format where
  /-- no operand, 1 byte -/
  | n
  /-- one register, 2 bytes -/
  | r
  /-- branch target, 2 bytes -/
  | t
  /-- two registers, 3 bytes -/
  | rr
  /-- register and address, 3 bytes -/
  | ra
deriving DecidableEq, Repr

/-- The 16 mnemonics (30_encoding.md R70, spelled as its section 6 table does). -/
inductive Mnemonic where
  | add | sub | addc | inc | loadDirect | readIo | store | shl | shr
  | and | or | xor | complement | branchIfZero | branchIfCarry | halt
deriving DecidableEq, Repr

/-- An instruction with its operands in encoding order (R61 to R63). Register operands are resolved; `addr`
and `target` are the raw operand bytes, each of the 256 values allowed (R67, R68, R72). -/
inductive Instr where
  /-- 0x00 ADD (R110) -/
  | add (rd rs : Reg)
  /-- 0x01 SUB (R111) -/
  | sub (rd rs : Reg)
  /-- 0x02 ADDC (R112) -/
  | addc (rd rs : Reg)
  /-- 0x03 INC (R113) -/
  | inc (rd : Reg)
  /-- 0x04 LOAD_DIRECT (R120) -/
  | loadDirect (r : Reg) (addr : Byte)
  /-- 0x05 READ_IO (R121) -/
  | readIo (rd : Reg)
  /-- 0x06 STORE (R122) -/
  | store (r : Reg) (addr : Byte)
  /-- 0x07 SHL (R130) -/
  | shl (rd : Reg)
  /-- 0x08 SHR (R131) -/
  | shr (rd : Reg)
  /-- 0x09 AND (R135) -/
  | and (rd rs : Reg)
  /-- 0x0A OR (R136) -/
  | or (rd rs : Reg)
  /-- 0x0B XOR (R137) -/
  | xor (rd rs : Reg)
  /-- 0x0C COMPLEMENT (R138) -/
  | complement (rd : Reg)
  /-- 0x0D BRANCH_IF_ZERO (R145) -/
  | branchIfZero (target : Byte)
  /-- 0x0E BRANCH_IF_CARRY (R146) -/
  | branchIfCarry (target : Byte)
  /-- 0x10 HALT (R148) -/
  | halt
deriving DecidableEq, Repr

end Sys2Proof
end

