-- ==== Sys2Proof/Decode.lean ====
section
/-! DEFINITION. Decoding and encoding (30_encoding.md R60 to R72; 40_instruction_cycle.md R83 to R85). The
two tables, opcode bytes (R70) and register selectors (R66), stand here once in each direction. The decoder
is total on any bytes and rejects by name. -/

namespace Sys2Proof

/-- The register selector bytes (R66). -/
def selectorOf : Reg → Byte
  | .a => 0xF0#8
  | .b => 0xF1#8
  | .c => 0xF2#8
  | .d => 0xF3#8
  | .e => 0xF4#8

/-- `RegOf(s)` (R66): the register a selector byte names; `none` stands for `raise DecodeError(s)`. -/
def regOf (s : Byte) : Option Reg :=
  match s.toNat with
  | 0xF0 => some .a
  | 0xF1 => some .b
  | 0xF2 => some .c
  | 0xF3 => some .d
  | 0xF4 => some .e
  | _ => none

/-- The opcode bytes (R70). -/
def opcodeOf : Mnemonic → Byte
  | .add => 0x00#8
  | .sub => 0x01#8
  | .addc => 0x02#8
  | .inc => 0x03#8
  | .loadDirect => 0x04#8
  | .readIo => 0x05#8
  | .store => 0x06#8
  | .shl => 0x07#8
  | .shr => 0x08#8
  | .and => 0x09#8
  | .or => 0x0A#8
  | .xor => 0x0B#8
  | .complement => 0x0C#8
  | .branchIfZero => 0x0D#8
  | .branchIfCarry => 0x0E#8
  | .halt => 0x10#8

/-- The opcode map read from a byte (R70, R83); `none` is an illegal opcode, 0x0F or 0x11 to 0xFF (R71). -/
def mnemonicOf (op : Byte) : Option Mnemonic :=
  match op.toNat with
  | 0x00 => some .add
  | 0x01 => some .sub
  | 0x02 => some .addc
  | 0x03 => some .inc
  | 0x04 => some .loadDirect
  | 0x05 => some .readIo
  | 0x06 => some .store
  | 0x07 => some .shl
  | 0x08 => some .shr
  | 0x09 => some .and
  | 0x0A => some .or
  | 0x0B => some .xor
  | 0x0C => some .complement
  | 0x0D => some .branchIfZero
  | 0x0E => some .branchIfCarry
  | 0x10 => some .halt
  | _ => none

/-- The format of each instruction (R62, R70). -/
def formatOf : Mnemonic → Format
  | .halt => .n
  | .inc => .r
  | .readIo => .r
  | .shl => .r
  | .shr => .r
  | .complement => .r
  | .branchIfZero => .t
  | .branchIfCarry => .t
  | .add => .rr
  | .sub => .rr
  | .addc => .rr
  | .and => .rr
  | .or => .rr
  | .xor => .rr
  | .loadDirect => .ra
  | .store => .ra

/-- The length in bytes of a format (R60, R62). -/
def formatLength : Format → Nat
  | .n => 1
  | .r => 2
  | .t => 2
  | .rr => 3
  | .ra => 3

/-- The length in bytes of an instruction, decided by its opcode alone (R60). -/
def lengthOf (m : Mnemonic) : Nat := formatLength (formatOf m)

/-- The mnemonic of an instruction. -/
def mnemonicOfInstr : Instr → Mnemonic
  | .add _ _ => .add
  | .sub _ _ => .sub
  | .addc _ _ => .addc
  | .inc _ => .inc
  | .loadDirect _ _ => .loadDirect
  | .readIo _ => .readIo
  | .store _ _ => .store
  | .shl _ => .shl
  | .shr _ => .shr
  | .and _ _ => .and
  | .or _ _ => .or
  | .xor _ _ => .xor
  | .complement _ => .complement
  | .branchIfZero _ => .branchIfZero
  | .branchIfCarry _ => .branchIfCarry
  | .halt => .halt

/-- Why a sequence of bytes is no instruction, named as the checks of 60_exceptions.md R179 are: no opcode
byte, an illegal opcode, a missing operand byte (its number, 1 or 2), a byte that is no register selector. -/
inductive Reject where
  | noOpcode
  | illegalOpcode (op : Byte)
  | missingOperand (number : Nat)
  | badSelector (sel : Byte)
deriving DecidableEq, Repr

/-- What the decoder answers: an instruction and the bytes after it, or a rejection by name. -/
inductive Decoded where
  | instr (i : Instr) (rest : List Byte)
  | rejected (why : Reject)
deriving DecidableEq, Repr

/-- One register operand resolved with `RegOf` (R85); an invalid selector is the error's byte. -/
def resolveR (make : Reg → Instr) (op1 : Byte) : Except Byte Instr :=
  match regOf op1 with
  | none => .error op1
  | some rd => .ok (make rd)

/-- Two register operands resolved in operand order (R85): of two invalid selectors the first is reported. -/
def resolveRR (make : Reg → Reg → Instr) (op1 op2 : Byte) : Except Byte Instr :=
  match regOf op1 with
  | none => .error op1
  | some rd =>
    match regOf op2 with
    | none => .error op2
    | some rs => .ok (make rd rs)

/-- Operand resolution (R85): register operands through `RegOf`, `addr` and `target` bytes as they stand. -/
def resolve (m : Mnemonic) (op1 op2 : Byte) : Except Byte Instr :=
  match m with
  | .add => resolveRR .add op1 op2
  | .sub => resolveRR .sub op1 op2
  | .addc => resolveRR .addc op1 op2
  | .and => resolveRR .and op1 op2
  | .or => resolveRR .or op1 op2
  | .xor => resolveRR .xor op1 op2
  | .inc => resolveR .inc op1
  | .readIo => resolveR .readIo op1
  | .shl => resolveR .shl op1
  | .shr => resolveR .shr op1
  | .complement => resolveR .complement op1
  | .loadDirect => resolveR (fun r => .loadDirect r op2) op1
  | .store => resolveR (fun r => .store r op2) op1
  | .branchIfZero => .ok (.branchIfZero op1)
  | .branchIfCarry => .ok (.branchIfCarry op1)
  | .halt => .ok .halt

/-- `resolve` as an answer of the decoder, with the bytes that follow the instruction. -/
def decodedOf (m : Mnemonic) (op1 op2 : Byte) (rest : List Byte) : Decoded :=
  match resolve m op1 op2 with
  | .error sel => .rejected (.badSelector sel)
  | .ok i => .instr i rest

/-- Operand bytes in the order they are read (R61, R84), both before any of them is interpreted. -/
def decodeOperands (m : Mnemonic) (bytes : List Byte) : Decoded :=
  match lengthOf m, bytes with
  | 1, rest => decodedOf m 0#8 0#8 rest
  | 2, op1 :: rest => decodedOf m op1 0#8 rest
  | 3, op1 :: op2 :: rest => decodedOf m op1 op2 rest
  | 3, [_] => .rejected (.missingOperand 2)
  | _, _ => .rejected (.missingOperand 1)

/-- The decoder: the instruction whose opcode byte is the first of `bytes` (R60, R61, R83 to R85). -/
def decode : List Byte → Decoded
  | [] => .rejected .noOpcode
  | op :: rest =>
    match mnemonicOf op with
    | none => .rejected (.illegalOpcode op)
    | some m => decodeOperands m rest

/-- The encoder: opcode byte, then the operand bytes in encoding order (R61, R62, R70). -/
def encode : Instr → List Byte
  | .add rd rs => [opcodeOf .add, selectorOf rd, selectorOf rs]
  | .sub rd rs => [opcodeOf .sub, selectorOf rd, selectorOf rs]
  | .addc rd rs => [opcodeOf .addc, selectorOf rd, selectorOf rs]
  | .inc rd => [opcodeOf .inc, selectorOf rd]
  | .loadDirect r addr => [opcodeOf .loadDirect, selectorOf r, addr]
  | .readIo rd => [opcodeOf .readIo, selectorOf rd]
  | .store r addr => [opcodeOf .store, selectorOf r, addr]
  | .shl rd => [opcodeOf .shl, selectorOf rd]
  | .shr rd => [opcodeOf .shr, selectorOf rd]
  | .and rd rs => [opcodeOf .and, selectorOf rd, selectorOf rs]
  | .or rd rs => [opcodeOf .or, selectorOf rd, selectorOf rs]
  | .xor rd rs => [opcodeOf .xor, selectorOf rd, selectorOf rs]
  | .complement rd => [opcodeOf .complement, selectorOf rd]
  | .branchIfZero target => [opcodeOf .branchIfZero, target]
  | .branchIfCarry target => [opcodeOf .branchIfCarry, target]
  | .halt => [opcodeOf .halt]

/-- The three bytes of an instruction given as a number, the first byte in bits 7..0, every bit from
`nbits` on 0 (spec/opcode_table.json numbers an instruction's bits so). Three is the longest instruction (R60). -/
def tableBytes (nbits w : Nat) : List Byte :=
  let v := w % 2 ^ nbits
  [BitVec.ofNat 8 v, BitVec.ofNat 8 (v / 256), BitVec.ofNat 8 (v / 65536)]

/-- The instruction the decoder reads from a number laid out as `tableBytes` says; `none` where it rejects. -/
def decodeTableWord (nbits w : Nat) : Option Instr :=
  match decode (tableBytes nbits w) with
  | .instr i _ => some i
  | .rejected _ => none

end Sys2Proof
end

