-- ==== Sys2Proof/Config.lean ====
section
/-! DEFINITION. The implementation parameters of 00_scope.md R4 (decision D28: each literal in one place)
and the free values the spec leaves unspecified (93_implementation_defined.md section 2). The parameter
XLEN is the width of `Byte`, NREGS the number of constructors of `Reg`, PC_WIDTH the width of the field
`pc`; the opcode and selector bytes stand in the tables of Decode.lean. -/

namespace Sys2Proof.Config

/-- `MEM_SIZE`: number of data memory cells (R4, R40). -/
def memSize : Nat := 100

/-- `SCRATCH_ADDR`: the cell the adder writes its result to (R4, R44). -/
def scratchAddr : Byte := 10#8

/-- `IMAGE_MAX`: the largest number of program image bytes (R4, R45). -/
def imageMax : Nat := 50

/-- `STACK_DEPTH`: capacity of the temporary stack in bytes, the spec's default (R4, R24, D3). DESIGN CHOICE,
log 9: the spec allows any value of 10 or more. -/
def stackDepth : Nat := 16

/-- `RESET_PC`: program counter after reset (R4, R16, D2). -/
def resetPc : Byte := 0#8

/-- What an unlisted data memory cell holds: "zero-initialized at startup" (R41). -/
def memDefault : Byte := 0#8

/-- FREE VALUE: an unspecified byte, numbered by the state's counter `freeCtr` (V2, V4, V5, V6; logs 6, 10, 11, 12). -/
opaque freeByte : Nat → Byte

/-- FREE VALUE: an unspecified flag (V5; log 11). -/
opaque freeBool : Nat → Bool

/-- FREE VALUE: an unspecified stack content (V5; log 11); the capacity of the stack is applied where it is used. -/
opaque freeStack : Nat → List Byte

/-- FREE VALUE: byte `k` of the infinite input sequence number `source` (R4, R157: "finite or infinite", "under no law"; V8;
log 7). -/
opaque inputByte : (source k : Nat) → Byte

/-- FREE VALUE: answer `k` of the endless input source number `source`, `none` being "not yet" (R90, R158; log 7). -/
opaque inputReply : (source k : Nat) → Option Byte

end Sys2Proof.Config
end

