-- ==== Sys2Proof/Machine/State.lean ====
section
/-! DEFINITION. The machine's state as plain data: every row of 10_state.md R30, the arguments and
collaborator state the step needs (R31, R157, R160; logs 1, 7, 8), and the model's own free-value counter. -/

namespace Sys2Proof.Machine

/-- The register file: five independent 8-bit cells (R10). -/
structure RegFile where
  a : Byte
  b : Byte
  c : Byte
  d : Byte
  e : Byte
deriving DecidableEq, Repr

/-- The flag register: four independent booleans, Carry, Zero, Overflow, Negative (R17). -/
structure Flags where
  c : Bool
  z : Bool
  v : Bool
  n : Bool
deriving DecidableEq, Repr

/-- The FSM state `st` (R22). -/
inductive Phase where
  | fetch | decode | execute | halted | faulted
deriving DecidableEq, Repr

/-- `err.kind` (R23, R170): five kinds of error, or none. -/
inductive ErrKind where
  | noError | decodeError | boundsError | stackUnderflow | inputUnavailable | stackOverflow
deriving DecidableEq, Repr

/-- The error record (R23); `opcode` is `none` when no opcode was read. -/
structure ErrRecord where
  kind : ErrKind
  pc : Byte
  opcode : Option Byte
  detail : Byte
deriving DecidableEq, Repr

/-- One answer of the character input source to a request (R158): a value, or not yet. A source that has
given all its answers says that no value will come (R157, `InputTail`). -/
inductive InputAnswer where
  | value (v : Byte)
  | notYet
deriving DecidableEq, Repr

/-- What the source answers after its listed answers: that no value will come, or endlessly many answers more
(R4, R157: `INPUT` is a finite or infinite sequence; log 7). -/
inductive InputTail where
  /-- the sequence is finite: no value will come -/
  | ends
  /-- the answers `first`, then `more`, over and over; `repeats .notYet []` is the source that never answers (R90, U12) -/
  | repeats (first : InputAnswer) (more : List InputAnswer)
  /-- the infinite byte sequence number `source`, free values under no law (V8) -/
  | values (source : Nat)
  /-- endless answers of any kind, values and "not yet" mixed, free values under no law (R158) -/
  | replies (source : Nat)
deriving DecidableEq, Repr

/-- `INPUT` (R157): the source's listed answers to successive requests, and what comes after them. -/
structure InputSource where
  answers : List InputAnswer
  tail : InputTail
deriving DecidableEq, Repr

/-- A resolved operand in a telemetry event (R160): a register name, or the number of an `addr` or `target`. -/
inductive EventOperand where
  | reg (r : Reg)
  | number (v : Byte)
deriving DecidableEq, Repr

/-- A telemetry event (R160): the instruction and the register and flag snapshot after it. -/
structure Event where
  iaddr : Byte
  op : Mnemonic
  operands : List EventOperand
  regs : RegFile
  flags : Flags
deriving DecidableEq, Repr

/-- Data memory: the cells that do not hold `Config.memDefault`, by rising address (`Memory.wf`). -/
abbrev Memory := List Host.Cell

structure State where
  /-- registers A to E (R10) -/
  regs : RegFile
  /-- program counter (R14) -/
  pc : Byte
  /-- flags C, Z, V, N (R17) -/
  flags : Flags
  /-- FSM state `st` (R22) -/
  st : Phase
  /-- error record `err` (R23) -/
  err : ErrRecord
  /-- temporary stack `stk`, top last (R24) -/
  stk : List Byte
  /-- latch: the opcode byte (R28) -/
  ir : Byte
  /-- latch: the instruction's address (R28) -/
  iaddr : Byte
  /-- latch: first operand byte (R28) -/
  op1 : Byte
  /-- latch: second operand byte (R28) -/
  op2 : Byte
  /-- data memory `mem` (20_memory.md R40) -/
  mem : Memory
  /-- program image `PROG`; its length is `L` (20_memory.md R45). No step changes it (R31); log 1. -/
  prog : List Byte
  /-- `INPUT`: what the input source answers to successive requests (50_interfaces.md R157, R158); logs 1, 7. -/
  input : InputSource
  /-- the source's cursor `k` into `INPUT` (R157) -/
  inputPos : Nat
  /-- the output list of telemetry events, oldest first (R160); log 8 -/
  events : List Event
  /-- the MODEL's own field: how many free values have been used; log 13 -/
  freeCtr : Nat
deriving DecidableEq, Repr

/-- Reasons for the outcome `.fault`. There are none: every error of the machine is an event the spec
describes (60_exceptions.md R177) and is taken as a NEXT state in FAULTED (log 14). Safe: nothing is hidden
behind a fault. -/
inductive Fault where
deriving DecidableEq, Repr

/-- Reasons for a refusal. -/
inductive Refusal where
  /-- Raised by `exec` for an instruction that has no meaning yet; safe. No arm raises it in this model. -/
  | notModelled (mnemonic : String)
deriving DecidableEq, Repr

/-- The state at the start of a run (40_instruction_cycle.md R91) for given `REG_RESET`, `MEM_INIT`, `PROG`
and `INPUT`; the rest is R30. DESIGN CHOICE: the latches, `err.pc`, `err.opcode`, `err.detail` (logs 4, 5)
and `freeCtr` (log 13), which the spec leaves unspecified or does not have. -/
def State.start (regReset : RegFile) (memInit : Memory) (prog : List Byte) (input : InputSource) : State :=
  { regs := regReset
    pc := Config.resetPc
    flags := { c := false, z := false, v := false, n := false }
    st := .fetch
    err := { kind := .noError, pc := 0#8, opcode := none, detail := 0#8 }
    stk := []
    ir := 0#8
    iaddr := 0#8
    op1 := 0#8
    op2 := 0#8
    mem := memInit
    prog := prog
    input := input
    inputPos := 0
    events := []
    freeCtr := 0 }

/-- The machine right after reset (R30, R195), nothing loaded and nothing supplied. DESIGN CHOICE, log 3: the
open parameter `REG_RESET` is the spec's suggested 0x00 in all five registers (R13). -/
def State.reset : State :=
  State.start { a := 0#8, b := 0#8, c := 0#8, d := 0#8, e := 0#8 } [] [] { answers := [], tail := .ends }

end Sys2Proof.Machine
end

