-- ==== Sys2Proof/Machine/Operands.lean ====
section
/-! DEFINITION. The operand forms: register operands (R10, R66), the absolute address (R67, R120), the branch
target (R68), and what a telemetry event says of them (R160). There are no immediates (R64). -/

namespace Sys2Proof.Machine

/-- `x[i]` (R6). -/
def getReg (regs : RegFile) : Reg → Byte
  | .a => regs.a
  | .b => regs.b
  | .c => regs.c
  | .d => regs.d
  | .e => regs.e

/-- The register file after `x[i] <- v` (R6); no other register changes (R10, R12). -/
def setReg (regs : RegFile) (i : Reg) (v : Byte) : RegFile :=
  match i with
  | .a => { regs with a := v }
  | .b => { regs with b := v }
  | .c => { regs with c := v }
  | .d => { regs with d := v }
  | .e => { regs with e := v }

/-- `x[i]` of a state. -/
def readReg (i : Reg) (s : State) : Byte := getReg s.regs i

/-- `x[i] <- v` on a state. -/
def writeReg (i : Reg) (v : Byte) (s : State) : State := { s with regs := setReg s.regs i v }

/-- The effective address of the absolute direct mode: the operand byte itself (R67, R120). -/
def effectiveAddress (addr : Byte) : Nat := addr.toNat

/-- The program counter of a taken branch: the operand byte itself, absolute (R68, R147). -/
def branchTarget (target : Byte) : Byte := target

/-- The resolved operands in encoding order, as a telemetry event names them (R160). -/
def eventOperands : Instr → List EventOperand
  | .add rd rs => [.reg rd, .reg rs]
  | .sub rd rs => [.reg rd, .reg rs]
  | .addc rd rs => [.reg rd, .reg rs]
  | .inc rd => [.reg rd]
  | .loadDirect r addr => [.reg r, .number addr]
  | .readIo rd => [.reg rd]
  | .store r addr => [.reg r, .number addr]
  | .shl rd => [.reg rd]
  | .shr rd => [.reg rd]
  | .and rd rs => [.reg rd, .reg rs]
  | .or rd rs => [.reg rd, .reg rs]
  | .xor rd rs => [.reg rd, .reg rs]
  | .complement rd => [.reg rd]
  | .branchIfZero target => [.number target]
  | .branchIfCarry target => [.number target]
  | .halt => []

end Sys2Proof.Machine
end

