-- ==== Sys2Proof/Machine/Ops.lean ====
section
/-! DEFINITION. The named operations of 00_scope.md R6 over the state: data memory, program image, input
channel, temporary stack; taking an error (60_exceptions.md R177); completing an instruction
(40_instruction_cycle.md R87). -/

namespace Sys2Proof.Machine

/-! ### Errors -/

/-- What an instruction raises: the kind, and the detail where the spec gives one (R176). -/
structure Trap where
  kind : ErrKind
  detail : Option Byte
deriving DecidableEq, Repr

/-- The numeric codes of the error kinds (R176). -/
def errCode : ErrKind → Nat
  | .noError => 0
  | .decodeError => 1
  | .boundsError => 2
  | .stackUnderflow => 3
  | .inputUnavailable => 4
  | .stackOverflow => 5

/-- The two errors that arise inside an Arithmetic Unit call (R107, R173, R175). -/
def isStackFault : ErrKind → Bool
  | .stackUnderflow => true
  | .stackOverflow => true
  | .noError => false
  | .decodeError => false
  | .boundsError => false
  | .inputUnavailable => false

/-! ### Data memory -/

/-- The cell at `addr` of a memory list; an unlisted cell holds `Config.memDefault`. -/
def memLookup : Memory → Nat → Byte
  | [], _ => Config.memDefault
  | (k, v) :: rest, addr => if k = addr then v else memLookup rest addr

/-- The memory list after cell `addr` becomes `v`; keeps the canonical form. -/
def memInsert : Memory → Nat → Byte → Memory
  | [], addr, v => if v = Config.memDefault then [] else [(addr, v)]
  | (k, w) :: rest, addr, v =>
    if addr < k then
      if v = Config.memDefault then (k, w) :: rest else (addr, v) :: (k, w) :: rest
    else if addr = k then
      if v = Config.memDefault then rest else (addr, v) :: rest
    else (k, w) :: memInsert rest addr v

/-- The canonical form: addresses of existing cells, strictly rising, no cell listed at its default. -/
def Memory.wf : Memory → Bool
  | [] => true
  | (k, v) :: rest =>
    decide (k < Config.memSize) && decide (v ≠ Config.memDefault) &&
      rest.all (fun cell => decide (k < cell.1)) && Memory.wf rest

/-- `MemRead(addr, 1)` (R42). -/
def memRead (addr : Byte) (s : State) : Except Trap Byte :=
  if effectiveAddress addr < Config.memSize then .ok (memLookup s.mem (effectiveAddress addr))
  else .error { kind := .boundsError, detail := some addr }

/-- `MemWrite(addr, 1, v)` (R43). -/
def memWrite (addr v : Byte) (s : State) : Except Trap State :=
  if effectiveAddress addr < Config.memSize then
    .ok { s with mem := memInsert s.mem (effectiveAddress addr) v }
  else .error { kind := .boundsError, detail := some addr }

/-- The adder's write of its result to the scratch cell, which cannot fault (R44, R100 step 8). -/
def writeScratch (v : Byte) (s : State) : State :=
  { s with mem := memInsert s.mem (effectiveAddress Config.scratchAddr) v }

/-! ### Program image and input channel -/

/-- `ProgRead(i)` (R46). The index is not reduced modulo 256; the error's detail is its low byte (log 18). -/
def progRead (i : Nat) (s : State) : Except Trap Byte :=
  match s.prog[i]? with
  | some v => .ok v
  | none => .error { kind := .boundsError, detail := some (BitVec.ofNat 8 i) }

/-- What a request to the input channel comes to (R157, R158): a value, no value will come, or not yet. -/
inductive InResult where
  | got (v : Byte) (s : State)
  | unavailable (t : Trap)
  | waiting (s : State)

/-- Answer `j` of the source after its listed answers; `none` when no value will come. -/
def tailAnswer : InputTail → Nat → Option InputAnswer
  | .ends, _ => none
  | .repeats first more, j => some ((first :: more).getD (j % (more.length + 1)) first)
  | .values source, j => some (.value (Config.inputByte source j))
  | .replies source, j =>
    match Config.inputReply source j with
    | some v => some (.value v)
    | none => some .notYet

/-- The source's answer to request `k` (R157); `none` when no value will come. -/
def inputAnswer (source : InputSource) (k : Nat) : Option InputAnswer :=
  match source.answers[k]? with
  | some answer => some answer
  | none => tailAnswer source.tail (k - source.answers.length)

/-- `InRead()` (R157): the source's next answer, and its cursor moved past it. An exhausted source says
that no value will come. -/
def inRead (s : State) : InResult :=
  match inputAnswer s.input s.inputPos with
  | some (.value v) => .got v { s with inputPos := s.inputPos + 1 }
  | some .notYet => .waiting { s with inputPos := s.inputPos + 1 }
  | none => .unavailable { kind := .inputUnavailable, detail := none }

/-! ### Temporary stack -/

/-- `Push(v)` (R24): on the top, which is last; a full stack raises StackOverflow (R175). -/
def push (v : Byte) (s : State) : Except Trap State :=
  if s.stk.length < Config.stackDepth then .ok { s with stk := s.stk ++ [v] }
  else .error { kind := .stackOverflow, detail := none }

/-- `Pop()` (R25): the top and the state without it; an empty stack raises StackUnderflow (R173). -/
def pop (s : State) : Except Trap (Byte × State) :=
  match s.stk.getLast? with
  | some v => .ok (v, { s with stk := s.stk.dropLast })
  | none => .error { kind := .stackUnderflow, detail := none }

/-! ### Free values -/

/-- All 100 cells unspecified, from free value `n` on (R178). -/
def freeMemory (n : Nat) : Memory :=
  (List.range Config.memSize).foldl (fun m addr => memInsert m addr (Config.freeByte (n + addr))) []

/-- Registers with unspecified content (V5, V6), five free values. -/
def freeRegs (n : Nat) : RegFile :=
  { a := Config.freeByte n
    b := Config.freeByte (n + 1)
    c := Config.freeByte (n + 2)
    d := Config.freeByte (n + 3)
    e := Config.freeByte (n + 4) }

/-- Flags with unspecified content (V5), four free values. -/
def freeFlags (n : Nat) : Flags :=
  { c := Config.freeBool n
    z := Config.freeBool (n + 1)
    v := Config.freeBool (n + 2)
    n := Config.freeBool (n + 3) }

/-- The latches carry nothing across an instruction boundary (R28): four free values (V2; log 6). -/
def forgetLatches (s : State) : State :=
  { s with
    ir := Config.freeByte s.freeCtr
    iaddr := Config.freeByte (s.freeCtr + 1)
    op1 := Config.freeByte (s.freeCtr + 2)
    op2 := Config.freeByte (s.freeCtr + 3)
    freeCtr := s.freeCtr + 4 }

/-- Everything of the core but `st` and `err` unspecified: the state after a stack fault (R178, V5; log 11).
The arguments of the run, the source's cursor and the events already emitted are not the core's to lose. -/
def unspecifyAll (s : State) : State :=
  forgetLatches
    { s with
      regs := freeRegs s.freeCtr
      pc := Config.freeByte (s.freeCtr + 5)
      flags := freeFlags (s.freeCtr + 6)
      stk := (Config.freeStack (s.freeCtr + 10)).take Config.stackDepth
      mem := freeMemory (s.freeCtr + 11)
      freeCtr := s.freeCtr + 11 + Config.memSize }

/-! ### Taking an error, completing an instruction -/

/-- The detail recorded for a trap: the byte the spec gives, or an unspecified one (R176, V4; log 10). -/
def trapDetail (t : Trap) (s : State) : Byte :=
  match t.detail with
  | some v => v
  | none => Config.freeByte s.freeCtr

/-- The free-value counter after a trap: moved on where `trapDetail` used a free value. -/
def trapCounter (t : Trap) (s : State) : Nat :=
  match t.detail with
  | some _ => s.freeCtr
  | none => s.freeCtr + 1

/-- Error entry (R177): FAULTED, and the error record of R176 with `err.pc` the instruction's address; nothing
else changes. There is no handler, no saved state and no return (R181). -/
def enterFaulted (opcode : Option Byte) (t : Trap) (s : State) : State :=
  { s with
    st := .faulted
    err := { kind := t.kind, pc := s.iaddr, opcode := opcode, detail := trapDetail t s }
    freeCtr := trapCounter t s }

/-- `raise` (R6, R177): error entry; after a stack fault all but `st` and `err` is unspecified (R178). -/
def raiseTrap (opcode : Option Byte) (t : Trap) (s : State) : State :=
  if isStackFault t.kind then unspecifyAll (enterFaulted opcode t s)
  else enterFaulted opcode t s

/-- A `raise` in DECODE or EXECUTE, where the opcode has been read (R176). -/
def raiseInInstr (t : Trap) (s : State) : Host.Outcome State Fault Refusal :=
  .next (raiseTrap (some s.ir) t s)

/-- The telemetry event of an instruction that has completed with the state `s` (R160). -/
def eventOf (i : Instr) (s : State) : Event :=
  { iaddr := s.iaddr
    op := mnemonicOfInstr i
    operands := eventOperands i
    regs := s.regs
    flags := s.flags }

/-- The end of an instruction (R87): the telemetry event, then the next FSM state; the latches end here (R28). -/
def finish (i : Instr) (st : Phase) (s : State) : State :=
  forgetLatches { s with events := s.events ++ [eventOf i s], st := st }

/-- The single write of `pc` (R14, R87) and the end of the instruction, back in FETCH. -/
def completeAt (i : Instr) (pc : Byte) (s : State) : Host.Outcome State Fault Refusal :=
  .next (finish i .fetch { s with pc := pc })

/-- `pc <- iaddr + len` (R87): completion of every instruction but a taken branch and HALT. -/
def complete (i : Instr) (s : State) : Host.Outcome State Fault Refusal :=
  completeAt i (s.iaddr + BitVec.ofNat 8 (lengthOf (mnemonicOfInstr i))) s

/-- The status outputs (R162). -/
inductive Status where
  | running
  | halted
  | faulted (err : ErrRecord)
deriving DecidableEq, Repr

/-- What the core shows of itself (R162). -/
def status (s : State) : Status :=
  match s.st with
  | .fetch => .running
  | .decode => .running
  | .execute => .running
  | .halted => .halted
  | .faulted => .faulted s.err

end Sys2Proof.Machine
end

