-- ==== Sys2Proof/Machine/Flags.lean ====
section
/-! DEFINITION. The adder and its flags (41_arithmetic.md R100 to R102), as functions of values. Nothing else
computes a flag (10_state.md R18). -/

namespace Sys2Proof.Machine

/-- What `Add8` returns: a byte and four flag values (R100). -/
structure AddResult where
  r : Byte
  flags : Flags
deriving DecidableEq, Repr

/-- A bit as a number. -/
def bitNat (b : Bool) : Nat := if b then 1 else 0

/-- Steps 1 to 7 of `Add8(a, b)` (R100); step 8 is `writeScratch`. The sums of step 2 (8 bits, 0 to 254) and of
step 3 (2 bits, 0 to 3) are exact. -/
def add8 (a b : Byte) : AddResult :=
  -- 1: sign bits and magnitudes
  let sa := a.getLsbD 7
  let ma := a.toNat % 128
  let sb := b.getLsbD 7
  let mb := b.toNat % 128
  -- 2: magnitude sum and internal carry
  let m : Byte := BitVec.ofNat 8 (ma + mb)
  let c1 := m.getLsbD 7
  -- 3: sign sum
  let s : BitVec 2 := BitVec.ofNat 2 (bitNat sa + bitNat sb + bitNat c1)
  let sign := s.getLsbD 0
  let carryOut := s.getLsbD 1
  -- 6: the final sign bit and the low seven bits of the magnitude sum
  let r : Byte := BitVec.ofNat 8 (128 * bitNat sign + m.toNat % 128)
  -- 4, 5, 7: the flags
  { r := r
    flags := { c := carryOut, z := decide (r = 0#8), v := carryOut ^^ c1, n := r.getLsbD 7 } }

/-- `Inc8(a)` (R102): wraps, no flags (D24). -/
def inc8 (a : Byte) : Byte := a + 1#8

/-- `Inc8(~b)` (R102): the two's complement negation SUB makes of its second operand. -/
def neg8 (b : Byte) : Byte := inc8 (~~~b)

/-- `Sub8(a, b)` (R102, R109). -/
def sub8 (a b : Byte) : AddResult := add8 a (neg8 b)

/-- `Addc8(a, b, cin)` (R102, R108): the flags are those of the plain sum. -/
def addc8 (a b : Byte) (cin : Bool) : AddResult :=
  { add8 a b with r := if cin then inc8 (add8 a b).r else (add8 a b).r }

end Sys2Proof.Machine
end

