-- ==== Sys2Proof/Machine/Arithmetic.lean ====
section
/-! DEFINITION. The Arithmetic Unit's call sequences with the temporary stack (41_arithmetic.md R104, R105)
and the instructions ADD, SUB, ADDC, INC (R110 to R113). -/

namespace Sys2Proof.Machine

/-- Push several bytes, the first one first. -/
def pushAll : List Byte → State → Except Trap State
  | [], s => .ok s
  | v :: rest, s =>
    match push v s with
    | .error t => .error t
    | .ok s => pushAll rest s

/-- The five registers in the order they are pushed (R4 `SAVE_SET`, R105). -/
def savedRegs (regs : RegFile) : List Byte := [regs.a, regs.b, regs.c, regs.d, regs.e]

/-- Push A, B, C, D, E, in that order (R105). -/
def saveRegs (s : State) : Except Trap State := pushAll (savedRegs s.regs) s

/-- Pop E, D, C, B, A, in that order (R105). -/
def restoreRegs (s : State) : Except Trap State := do
  let (e, s) ← pop s
  let (d, s) ← pop s
  let (c, s) ← pop s
  let (b, s) ← pop s
  let (a, s) ← pop s
  .ok { s with regs := { a := a, b := b, c := c, d := d, e := e } }

/-- The registers as working storage during a call: unspecified content (R104, R105, V6; log 12). -/
def clobberRegs (s : State) : State :=
  { s with regs := freeRegs s.freeCtr, freeCtr := s.freeCtr + 5 }

/-- An Arithmetic Unit call (R105): the registers saved, used as working storage by `body`, and restored. -/
def bracket (body : State → Except Trap (AddResult × State)) (s : State) : Except Trap (AddResult × State) := do
  let saved ← saveRegs s
  let (res, inside) ← body (clobberRegs saved)
  let restored ← restoreRegs inside
  .ok (res, restored)

/-- `AluAdd(a, b)` (R105): the adder, its result in the scratch cell and returned. -/
def aluAdd (a b : Byte) (s : State) : Except Trap (AddResult × State) :=
  bracket (fun s => .ok (add8 a b, writeScratch (add8 a b).r s)) s

/-- `AluSub(a, b)` (R105): negates `b`, then a nested `AluAdd`. -/
def aluSub (a b : Byte) (s : State) : Except Trap (AddResult × State) :=
  bracket (fun s => aluAdd a (neg8 b) s) s

/-- `AluAddc(a, b, cin)` (R105): a nested `AluAdd`, then the carry-in added to its result alone (R108). -/
def aluAddc (a b : Byte) (cin : Bool) (s : State) : Except Trap (AddResult × State) :=
  bracket
    (fun s => do
      let (res, s) ← aluAdd a b s
      .ok ({ res with r := if cin then inc8 res.r else res.r }, s))
    s

/-- The end of ADD, SUB and ADDC (R105, R110 to R112): a stack fault is raised; otherwise the Control Unit
writes the destination and the four flags. -/
def completeAdder (i : Instr) (rd : Reg) (call : Except Trap (AddResult × State)) (s : State) :
    Host.Outcome State Fault Refusal :=
  match call with
  | .error t => raiseInInstr t s
  | .ok (res, after) => complete i { writeReg rd res.r after with flags := res.flags }

/-- ADD `rd, rs` (R110). -/
def execAdd (rd rs : Reg) (s : State) : Host.Outcome State Fault Refusal :=
  completeAdder (.add rd rs) rd (aluAdd (readReg rd s) (readReg rs s) s) s

/-- SUB `rd, rs` (R111). -/
def execSub (rd rs : Reg) (s : State) : Host.Outcome State Fault Refusal :=
  completeAdder (.sub rd rs) rd (aluSub (readReg rd s) (readReg rs s) s) s

/-- ADDC `rd, rs` (R112); the carry-in is the Carry flag before the instruction. -/
def execAddc (rd rs : Reg) (s : State) : Host.Outcome State Fault Refusal :=
  completeAdder (.addc rd rs) rd (aluAddc (readReg rd s) (readReg rs s) s.flags.c s) s

/-- INC `rd` (R113): no flags, no memory, no stack. -/
def execInc (rd : Reg) (s : State) : Host.Outcome State Fault Refusal :=
  complete (.inc rd) (writeReg rd (inc8 (readReg rd s)) s)

end Sys2Proof.Machine
end

