-- ==== Sys2Proof/Machine/Branch.lean ====
section
/-! DEFINITION. BRANCH_IF_ZERO, BRANCH_IF_CARRY, HALT (45_branch_halt.md R145, R146, R148). -/

namespace Sys2Proof.Machine

/-- A branch on a condition (R145 to R147): the target is absolute and not checked; otherwise past the operand. -/
def branchIf (i : Instr) (taken : Bool) (target : Byte) (s : State) : Host.Outcome State Fault Refusal :=
  if taken then completeAt i (branchTarget target) s else complete i s

/-- BRANCH_IF_ZERO `target` (R145). -/
def execBranchIfZero (target : Byte) (s : State) : Host.Outcome State Fault Refusal :=
  branchIf (.branchIfZero target) s.flags.z target s

/-- BRANCH_IF_CARRY `target` (R146). -/
def execBranchIfCarry (target : Byte) (s : State) : Host.Outcome State Fault Refusal :=
  branchIf (.branchIfCarry target) s.flags.c target s

/-- HALT (R148): HALTED; `pc` is not written. -/
def execHalt (s : State) : Host.Outcome State Fault Refusal :=
  .next (finish .halt .halted s)

end Sys2Proof.Machine
end

