-- ==== Sys2Proof/Machine/LoadStoreIo.lean ====
section
/-! DEFINITION. LOAD_DIRECT, READ_IO, STORE (42_load_store_io.md R120 to R122). -/

namespace Sys2Proof.Machine

/-- LOAD_DIRECT `r, addr` (R120). -/
def execLoadDirect (r : Reg) (addr : Byte) (s : State) : Host.Outcome State Fault Refusal :=
  match memRead addr s with
  | .error t => raiseInInstr t s
  | .ok v => complete (.loadDirect r addr) (writeReg r v s)

/-- READ_IO `rd` (R121). While the source has no answer yet the machine stays in EXECUTE and nothing else
changes (R80, R90; log 7). -/
def execReadIo (rd : Reg) (s : State) : Host.Outcome State Fault Refusal :=
  match inRead s with
  | .unavailable t => raiseInInstr t s
  | .waiting after => .next { after with st := .execute }
  | .got v after => complete (.readIo rd) (writeReg rd v after)

/-- STORE `r, addr` (R122). -/
def execStore (r : Reg) (addr : Byte) (s : State) : Host.Outcome State Fault Refusal :=
  match memWrite addr (readReg r s) s with
  | .error t => raiseInInstr t s
  | .ok after => complete (.store r addr) after

end Sys2Proof.Machine
end

