-- ==== Sys2Proof/Machine/ShiftLogic.lean ====
section
/-! DEFINITION. The shifts SHL, SHR (43_shift.md R130, R131) and the Logic Unit's AND, OR, XOR, COMPLEMENT
(44_logic.md R135 to R138; the truth tables PRESUMED, log 21). None writes a flag or memory, none uses the stack. -/

namespace Sys2Proof.Machine

/-- SHL `rd` (R130): toward bit 7, bit 0 becomes 0, old bit 7 is discarded (PRESUMED direction: log 21). -/
def execShl (rd : Reg) (s : State) : Host.Outcome State Fault Refusal :=
  complete (.shl rd) (writeReg rd (readReg rd s <<< 1) s)

/-- SHR `rd` (R131): toward bit 0, bit 7 becomes 0, old bit 0 is discarded (PRESUMED direction: log 21). -/
def execShr (rd : Reg) (s : State) : Host.Outcome State Fault Refusal :=
  complete (.shr rd) (writeReg rd (readReg rd s >>> 1) s)

/-- AND `rd, rs` (R135). -/
def execAnd (rd rs : Reg) (s : State) : Host.Outcome State Fault Refusal :=
  complete (.and rd rs) (writeReg rd (readReg rd s &&& readReg rs s) s)

/-- OR `rd, rs` (R136). -/
def execOr (rd rs : Reg) (s : State) : Host.Outcome State Fault Refusal :=
  complete (.or rd rs) (writeReg rd (readReg rd s ||| readReg rs s) s)

/-- XOR `rd, rs` (R137). -/
def execXor (rd rs : Reg) (s : State) : Host.Outcome State Fault Refusal :=
  complete (.xor rd rs) (writeReg rd (readReg rd s ^^^ readReg rs s) s)

/-- COMPLEMENT `rd` (R138). -/
def execComplement (rd : Reg) (s : State) : Host.Outcome State Fault Refusal :=
  complete (.complement rd) (writeReg rd (~~~(readReg rd s)) s)

end Sys2Proof.Machine
end

