-- ==== Sys2Proof/Machine/Dispatch.lean ====
section
/-! DEFINITION. One arm per instruction, each a direct call of its meaning. -/

namespace Sys2Proof.Machine

def exec (i : Instr) (s : State) : Host.Outcome State Fault Refusal :=
  match i with
  | .add rd rs => Sys2Proof.Machine.execAdd rd rs s
  | .sub rd rs => Sys2Proof.Machine.execSub rd rs s
  | .addc rd rs => Sys2Proof.Machine.execAddc rd rs s
  | .inc rd => Sys2Proof.Machine.execInc rd s
  | .loadDirect r addr => Sys2Proof.Machine.execLoadDirect r addr s
  | .readIo rd => Sys2Proof.Machine.execReadIo rd s
  | .store r addr => Sys2Proof.Machine.execStore r addr s
  | .shl rd => Sys2Proof.Machine.execShl rd s
  | .shr rd => Sys2Proof.Machine.execShr rd s
  | .and rd rs => Sys2Proof.Machine.execAnd rd rs s
  | .or rd rs => Sys2Proof.Machine.execOr rd rs s
  | .xor rd rs => Sys2Proof.Machine.execXor rd rs s
  | .complement rd => Sys2Proof.Machine.execComplement rd s
  | .branchIfZero target => Sys2Proof.Machine.execBranchIfZero target s
  | .branchIfCarry target => Sys2Proof.Machine.execBranchIfCarry target s
  | .halt => Sys2Proof.Machine.execHalt s

end Sys2Proof.Machine
end

