-- ==== Sys2Proof/Machine/Cycle.lean ====
section
/-! DEFINITION. The three phases of the Control Unit (40_instruction_cycle.md R80 to R87) and the placing of a
program in the image. Step.lean composes them. -/

namespace Sys2Proof.Machine

/-- FETCH (R82): latch the address, read the opcode byte. -/
def fetchPhase (s : State) : State :=
  let s := { s with iaddr := s.pc }
  match progRead s.pc.toNat s with
  | .error t => raiseTrap none t s
  | .ok op => { s with ir := op, st := .decode }

/-- What DECODE comes to: an error taken, or an instruction to execute. -/
inductive DecodeResult where
  | raised (s : State)
  | ready (i : Instr) (s : State)

/-- Operand fetch (R84): the bytes at `iaddr + 1` and `iaddr + 2`, as many as the length needs, in order. -/
def fetchOperands (len : Nat) (s : State) : Except Trap State :=
  if len < 2 then .ok s
  else
    match progRead (s.iaddr.toNat + 1) s with
    | .error t => .error t
    | .ok op1 =>
      if len < 3 then .ok { s with op1 := op1 }
      else
        match progRead (s.iaddr.toNat + 2) { s with op1 := op1 } with
        | .error t => .error t
        | .ok op2 => .ok { s with op1 := op1, op2 := op2 }

/-- Operand resolution from the latches (R85); on to EXECUTE when every selector is valid. -/
def resolvePhase (m : Mnemonic) (s : State) : DecodeResult :=
  match resolve m s.op1 s.op2 with
  | .error sel => .raised (raiseTrap (some s.ir) { kind := .decodeError, detail := some sel } s)
  | .ok i => .ready i { s with st := .execute }

/-- DECODE (R83 to R86): the opcode looked up, then the operand bytes read, then the selectors resolved. HALT is
recognised here and fetches nothing. -/
def decodePhase (s : State) : DecodeResult :=
  match mnemonicOf s.ir with
  | none => .raised (raiseTrap (some s.ir) { kind := .decodeError, detail := some s.ir } s)
  | some .halt => .ready .halt s
  | some m =>
    match fetchOperands (lengthOf m) s with
    | .error t => .raised (raiseTrap (some s.ir) t s)
    | .ok s => resolvePhase m s

/-- The instruction the latches hold in EXECUTE, where a waiting READ_IO resumes (R80, R90). Latches that hold no
instruction, which no run reaches, raise what DECODE would (log 17). -/
def latchedInstr (s : State) : DecodeResult :=
  match mnemonicOf s.ir with
  | none => .raised (raiseTrap (some s.ir) { kind := .decodeError, detail := some s.ir } s)
  | some m => resolvePhase m s

/-- EXECUTE (R87): the instruction's own meaning. -/
def executePhase : DecodeResult → Host.Outcome State Fault Refusal
  | .raised s => .next s
  | .ready i s => exec i s

/-- DECODE and EXECUTE after a FETCH that may have faulted. -/
def afterFetch (s : State) : Host.Outcome State Fault Refusal :=
  match s.st with
  | .decode => executePhase (decodePhase s)
  | .fetch => .next s
  | .execute => .next s
  | .halted => .next s
  | .faulted => .next s

/-- A program image with `bytes` from index `start` on; indices below it that the image did not have are filled with 0. -/
def placeBytes (image : List Byte) (start : Nat) (bytes : List Byte) : List Byte :=
  (image ++ List.replicate (start - image.length) 0#8).take start ++ bytes ++ image.drop (start + bytes.length)

end Sys2Proof.Machine
end

