-- ==== Sys2Proof/Machine/Step.lean ====
section
/-! DEFINITION. The step function (40_instruction_cycle.md R81, R93) and where it fetches. -/

namespace Sys2Proof.Machine

/-- `Step` (R93): from an instruction boundary to the next boundary, to HALTED or to FAULTED, or to a READ_IO that
waits in EXECUTE (R80, R90); HALTED and FAULTED are terminal (R88). From DECODE or EXECUTE the rest of the
instruction is done. -/
def step (s : State) : Host.Outcome State Fault Refusal :=
  match s.st with
  | .fetch => afterFetch (fetchPhase s)
  | .decode => executePhase (decodePhase s)
  | .execute => executePhase (latchedInstr s)
  | .halted => .next s
  | .faulted => .next s

/-- The loader's act (R155; log 2): an instruction placed in the image where the next step fetches, the machine in
FETCH. -/
def State.withFetchWord (s : State) (nbits w : Nat) : State :=
  { s with prog := placeBytes s.prog s.pc.toNat (tableBytes nbits w), st := .fetch }

end Sys2Proof.Machine
end

