-- ==== Sys2Proof/Machine/HostOps.lean ====
section
/-! DEFINITION. What the outside may do to the machine between steps (50_interfaces.md R155 to R163,
70_reset_and_hazards.md R195 to R198). No step calls these; `none` is "refused: the machine has no move for it". -/

namespace Sys2Proof.Machine

/-- Reset, applicable in any state (R161, R195, R196): every row of R30 takes its reset value. The image and the
input source are outside and stay (R31); the output list starts again (log 8); the free-value counter goes on,
so that no free value is used twice (log 16). -/
def applyReset (s : State) : State :=
  { State.reset with prog := s.prog, input := s.input, inputPos := s.inputPos, freeCtr := s.freeCtr }

/-- Before the first FETCH of a run (R155, R156, R198): in FETCH with no instruction completed. -/
def beforeRun (s : State) : Bool := decide (s.st = .fetch) && decide (s.events = [])

/-- The program loader (R155): `PROG` and `L`, before the run; an oversized image is refused (U8). -/
def loadProgram (image : List Byte) (s : State) : Option State :=
  if beforeRun s && decide (image.length ≤ Config.imageMax) then some { s with prog := image } else none

/-- The host's preset of a data memory cell, before the run (R41, R156). -/
def presetMemory (addr v : Byte) (s : State) : Option State :=
  if beforeRun s && decide (effectiveAddress addr < Config.memSize) then
    some { s with mem := memInsert s.mem (effectiveAddress addr) v }
  else none

/-- The input source made ready, before the run (R157, R198): the whole of `INPUT`, its cursor at 0. -/
def supplyInput (source : InputSource) (s : State) : Option State :=
  if beforeRun s then some { s with input := source, inputPos := 0 } else none

end Sys2Proof.Machine
end

