-- ==== Sys2Proof/WellFormed.lean ====
section
/-! DEFINITION. Well-formed programs in the sense of 70_reset_and_hazards.md R205: a program fits in the
image, its data addresses are 0 to 99 and its branch targets are indices of the image.

Every term of `Instr` is an instruction of the machine: it has an encoding, it decodes, and it has its
effect, whether or not it passes these checks (R72: an `addr` or `target` byte is never an illegal
encoding). What fails a check decodes as any other instruction, and raises BoundsError when, and only
when, its operand is used (R67, R68). No meaning, and no part of the decoder, asks for these checks. -/

namespace Sys2Proof

/-- A data memory address that exists (R40, R67). -/
def addrValid (addr : Byte) : Bool := decide (addr.toNat < Config.memSize)

/-- A branch target that some program image has as an index (R45, R205). -/
def targetValid (target : Byte) : Bool := decide (target.toNat < Config.imageMax)

/-- The operand checks of R205; the other instructions have no operand that can be out of range (R64, R66). -/
def Instr.wellFormed : Instr → Bool
  | .loadDirect _ addr => addrValid addr
  | .store _ addr => addrValid addr
  | .branchIfZero target => targetValid target
  | .branchIfCarry target => targetValid target
  | .add _ _ => true
  | .sub _ _ => true
  | .addc _ _ => true
  | .inc _ => true
  | .readIo _ => true
  | .shl _ => true
  | .shr _ => true
  | .and _ _ => true
  | .or _ _ => true
  | .xor _ _ => true
  | .complement _ => true
  | .halt => true

/-- An image the loader may supply: at most `IMAGE_MAX` bytes (R45, R155). -/
def imageWellFormed (image : List Byte) : Bool := decide (image.length ≤ Config.imageMax)

end Sys2Proof
end

