-- ==== Sys2Proof/Safety.lean ====
section
/-! DEFINITION. What the statements call a good state: the invariants the spec states in prose, each under its
own name, and their conjunction. -/

namespace Sys2Proof.Machine

/-- Data memory is in its canonical form and lists only cells that exist (20_memory.md R40). -/
def State.memoryWf (s : State) : Prop := Memory.wf s.mem = true

/-- The temporary stack is empty at every instruction boundary (10_state.md R26). -/
def State.stackEmpty (s : State) : Prop := s.stk = []

/-- The loaded image fits (20_memory.md R45). -/
def State.imageFits (s : State) : Prop := s.prog.length ≤ Config.imageMax

/-- A READ_IO that waits in EXECUTE: `pc` is still its address and the latches still hold it (R14, R28, R90). -/
def State.waitingReadIo (s : State) : Prop :=
  s.ir = opcodeOf .readIo ∧ s.iaddr = s.pc ∧ ∃ rd, regOf s.op1 = some rd

/-- Between steps the machine is in FETCH, HALTED, FAULTED, or in EXECUTE with a READ_IO that waits (R80, R81). -/
def State.betweenSteps (s : State) : Prop :=
  s.st = .fetch ∨ s.st = .halted ∨ s.st = .faulted ∨ (s.st = .execute ∧ s.waitingReadIo)

/-- The error record holds an error exactly in FAULTED (R23). -/
def State.errMatchesPhase (s : State) : Prop := s.st = .faulted ↔ s.err.kind ≠ .noError

/-- In FAULTED, `err.pc = pc`: a faulting instruction does not write `pc` (R14, R176). -/
def State.faultLocated (s : State) : Prop := s.st = .faulted → s.err.pc = s.pc

/-- No stack fault is recorded: no program, input or initial state causes one (41_arithmetic.md R107). -/
def State.stackFaultFree (s : State) : Prop := s.err.kind ≠ .stackOverflow ∧ s.err.kind ≠ .stackUnderflow

/-- All of the above. -/
structure State.Good (s : State) : Prop where
  memoryWf : s.memoryWf
  stackEmpty : s.stackEmpty
  imageFits : s.imageFits
  betweenSteps : s.betweenSteps
  errMatchesPhase : s.errMatchesPhase
  faultLocated : s.faultLocated
  stackFaultFree : s.stackFaultFree

end Sys2Proof.Machine
end

