-- ==== Sys2Proof/Certificates/Slice0/Obligations.lean ====
section
/-! DEFINITION. The statements for the provers. First the words they are written in, then one definition
`Obligations.<Name>` each. In every frame below the latches `ir`, `iaddr`, `op1`, `op2` are left out, because they
carry nothing across an instruction boundary (10_state.md R28, log 6), and so is the model's own `freeCtr`. -/

namespace Sys2Proof.Machine

/-- Every cell of data memory reads as before. -/
def memorySame (s t : State) : Prop := ∀ a : Nat, memLookup t.mem a = memLookup s.mem a

/-- The cell at `addr` reads `v`, every other cell as before. -/
def memoryStored (addr : Nat) (v : Byte) (s t : State) : Prop :=
  memLookup t.mem addr = v ∧ ∀ a : Nat, a ≠ addr → memLookup t.mem a = memLookup s.mem a

/-- Every register but `rd` holds what it held. -/
def otherRegsSame (rd : Reg) (s t : State) : Prop := ∀ i, i ≠ rd → getReg t.regs i = getReg s.regs i

/-- The instruction `i` has completed with `pc` committed: FETCH, one telemetry event with the snapshot after it,
and no change to the error record, the stack, the image or the input sequence. That an event is emitted rests on log 8
(DESIGN CHOICE: the spec says "may") and on the spec's decision D20 (R160), the single write of `pc` on D14. -/
def completed (i : Instr) (pc : Byte) (s t : State) : Prop :=
  t.st = .fetch ∧ t.pc = pc ∧ t.err = s.err ∧ t.stk = s.stk ∧ t.prog = s.prog ∧ t.input = s.input ∧
    t.events = s.events ++ [{ iaddr := s.iaddr, op := mnemonicOfInstr i, operands := eventOperands i,
                              regs := t.regs, flags := t.flags }]

/-- Everything a precise error leaves alone: registers, flags, `pc`, stack, memory, image, input, events. -/
def keptByError (s t : State) : Prop :=
  t.regs = s.regs ∧ t.flags = s.flags ∧ t.pc = s.pc ∧ t.stk = s.stk ∧ memorySame s t ∧ t.prog = s.prog ∧
    t.input = s.input ∧ t.inputPos = s.inputPos ∧ t.events = s.events

/-- FAULTED with this error record. -/
def errorIs (kind : ErrKind) (pc : Byte) (opcode : Option Byte) (detail : Byte) (t : State) : Prop :=
  t.st = .faulted ∧ t.err = { kind := kind, pc := pc, opcode := opcode, detail := detail }

/-- The next step takes this error, located at `pc`, and changes nothing else. -/
def stepRaises (kind : ErrKind) (opcode : Option Byte) (detail : Byte) (s : State) : Prop :=
  ∃ t, step s = .next t ∧ errorIs kind s.pc opcode detail t ∧ keptByError s t

/-- The errors an instruction of format `f` with opcode `op` meets before it executes (R84, R85, R179): an operand
byte at or beyond `L`, first operand before second, then an invalid selector, first operand before second. The order
is the spec's decision D16, the record's `detail` its D17. -/
def fetchErrors (f : Format) (op : Byte) : Prop :=
  ∀ s : State, s.st = .fetch → s.prog[s.pc.toNat]? = some op →
    (2 ≤ formatLength f → s.prog.length ≤ s.pc.toNat + 1 →
      stepRaises .boundsError (some op) (BitVec.ofNat 8 (s.pc.toNat + 1)) s) ∧
    (formatLength f = 3 → s.prog.length = s.pc.toNat + 2 →
      stepRaises .boundsError (some op) (BitVec.ofNat 8 (s.pc.toNat + 2)) s) ∧
    (∀ b1, f ≠ .n → f ≠ .t → s.pc.toNat + formatLength f ≤ s.prog.length →
      s.prog[s.pc.toNat + 1]? = some b1 → regOf b1 = none →
      stepRaises .decodeError (some op) b1 s) ∧
    (∀ b1 b2, f = .rr → s.prog[s.pc.toNat + 1]? = some b1 → s.prog[s.pc.toNat + 2]? = some b2 →
      regOf b1 ≠ none → regOf b2 = none →
      stepRaises .decodeError (some op) b2 s)

/-- The state in which a decoded instruction is executed: its bytes latched (R82, R84), in EXECUTE, or in DECODE for
HALT, which is recognised there (R86). -/
def latched (i : Instr) (s : State) : State :=
  { s with
    iaddr := s.pc
    ir := opcodeOf (mnemonicOfInstr i)
    op1 := (encode i).getD 1 s.op1
    op2 := (encode i).getD 2 s.op2
    st := if i = .halt then .decode else .execute }

/-- The state at the start of a run whose arguments are legal: a canonical `MEM_INIT`, at most 50 bytes of image. -/
def legalStart (memInit : Memory) (prog : List Byte) : Prop :=
  Memory.wf memInit = true ∧ imageWellFormed prog = true

end Sys2Proof.Machine

open Sys2Proof Sys2Proof.Machine

/-! ### Encoding and decoding -/

/-- Decoding an encoded instruction gives it back, whatever bytes follow (R60 to R66, R70). -/
def Obligations.DecodeEncodeRoundTrip : Prop :=
  ∀ (i : Instr) (rest : List Byte), decode (encode i ++ rest) = .instr i rest

/-- Bytes that decode are the encoding of what they decode to: no bit is dropped (R62, R65). -/
def Obligations.DecodedBytesAreTheEncoding : Prop :=
  ∀ (bytes rest : List Byte) (i : Instr), decode bytes = .instr i rest → bytes = encode i ++ rest

/-- Words written out from the spec's encodings decode to the instructions they stand for (R61, R70). -/
def Obligations.SampleWordsDecode : Prop :=
  decode [0x00#8, 0xF0#8, 0xF1#8] = .instr (.add .a .b) [] ∧
  decode [0x04#8, 0xF0#8, 0x05#8] = .instr (.loadDirect .a 5#8) [] ∧
  decode [0x06#8, 0xF2#8, 0x1E#8] = .instr (.store .c 30#8) [] ∧
  decode [0x07#8, 0xF4#8] = .instr (.shl .e) [] ∧
  decode [0x0B#8, 0xF3#8, 0xF3#8] = .instr (.xor .d .d) [] ∧
  decode [0x0D#8, 0x1B#8] = .instr (.branchIfZero 27#8) [] ∧
  decode [0x10#8] = .instr .halt []

/-- The register selectors: 0xF0 to 0xF4 name A to E, the other 251 bytes name nothing (R66). -/
def Obligations.RegisterSelectorTable : Prop :=
  regOf 0xF0#8 = some .a ∧ regOf 0xF1#8 = some .b ∧ regOf 0xF2#8 = some .c ∧ regOf 0xF3#8 = some .d ∧
  regOf 0xF4#8 = some .e ∧
  (∀ sel : Byte, regOf sel = none ↔ (sel.toNat < 0xF0 ∨ 0xF4 < sel.toNat))

/-- The opcode map and the lengths (R60, R70): 16 opcodes, 0x0F and everything above 0x10 illegal. -/
def Obligations.OpcodeTable : Prop :=
  (∀ m : Mnemonic, mnemonicOf (opcodeOf m) = some m) ∧
  (∀ op : Byte, mnemonicOf op = none ↔ (op = 0x0F#8 ∨ 0x10 < op.toNat)) ∧
  (∀ (op : Byte) (m : Mnemonic), mnemonicOf op = some m →
    lengthOf m =
      if op = 0x10#8 then 1
      else if op.toNat ∈ [0x00, 0x01, 0x02, 0x04, 0x06, 0x09, 0x0A, 0x0B] then 3 else 2)

/-! ### The instruction cycle -/

/-- A step runs the decoded instruction: when the bytes at `pc` decode to `i`, the step is `exec i` on the state with
`i` latched (R82 to R87, R93). -/
def Obligations.StepRunsDecodedInstruction : Prop :=
  ∀ (s : State) (i : Instr) (rest : List Byte),
    s.st = .fetch → decode (s.prog.drop s.pc.toNat) = .instr i rest → step s = exec i (latched i s)

/-- FETCH (R82): the address latched and the opcode read, or BoundsError with no opcode. -/
def Obligations.FetchReadsOpcodeOrRaises : Prop :=
  ∀ s : State, s.st = .fetch →
    (∀ op, s.prog[s.pc.toNat]? = some op → fetchPhase s = { s with iaddr := s.pc, ir := op, st := .decode }) ∧
    (s.prog.length ≤ s.pc.toNat → stepRaises .boundsError none s.pc s)

/-- An illegal opcode byte, 0x0F or 0x11 to 0xFF, raises DecodeError and executes nothing (R71, R83). -/
def Obligations.IllegalOpcodeRaises : Prop :=
  ∀ (s : State) (op : Byte), s.st = .fetch → s.prog[s.pc.toNat]? = some op →
    (op = 0x0F#8 ∨ 0x11 ≤ op.toNat) → stepRaises .decodeError (some op) op s

/-- Missing operand bytes and invalid selectors, in the spec's order, for every instruction but HALT (R84, R85, R179).
The order is the spec's decision D16. -/
def Obligations.OperandErrorsInOrder : Prop :=
  ∀ m : Mnemonic, m ≠ .halt → fetchErrors (formatOf m) (opcodeOf m)

/-- HALTED and FAULTED are terminal: a step returns the state unchanged (R88; the spec's decision D27). -/
def Obligations.TerminalStatesStay : Prop :=
  ∀ s : State, s.st = .halted ∨ s.st = .faulted → step s = .next s

/-- Every step answers a next state: no state faults the model or is refused (R80). That an error is a next state in
FAULTED and not a stop of the model is R177 (the spec's decision D15) and log 14. -/
def Obligations.StepAlwaysAnswersNext : Prop :=
  ∀ s : State, ∃ t, step s = .next t

/-- HALTED is reached only by decoding the HALT opcode (R22, R80, R86). -/
def Obligations.HaltedOnlyByHalt : Prop :=
  ∀ s t : State, s.st = .fetch → step s = .next t → t.st = .halted → s.prog[s.pc.toNat]? = some 0x10#8

/-- A taken branch to a target at or beyond `L` completes; the next FETCH raises BoundsError with the target as
`err.pc` and no opcode (R147; the spec's decision D13). -/
def Obligations.BranchTargetCheckedAtNextFetch : Prop :=
  ∀ (s : State) (target : Byte) (rest : List Byte),
    s.st = .fetch → s.prog.length ≤ target.toNat →
    (decode (s.prog.drop s.pc.toNat) = .instr (.branchIfZero target) rest ∧ s.flags.z = true ∨
      decode (s.prog.drop s.pc.toNat) = .instr (.branchIfCarry target) rest ∧ s.flags.c = true) →
    ∃ t, step s = .next t ∧ t.st = .fetch ∧ t.pc = target ∧ stepRaises .boundsError none target t

/-- The `pc` commit (R14, R15): after a completed instruction fetched below 50, `pc` is its index plus its length, at
most 52 and with no wrap, or the operand byte of a taken branch. The single write is the spec's decision D14. -/
def Obligations.PcCommit : Prop :=
  ∀ s t : State, s.Good → s.st = .fetch → step s = .next t → t.st = .fetch →
    (∃ i rest, decode (s.prog.drop s.pc.toNat) = .instr i rest ∧
      t.pc.toNat = s.pc.toNat + lengthOf (mnemonicOfInstr i) ∧ t.pc.toNat ≤ 52) ∨
    (∃ target rest, t.pc = target ∧
      (decode (s.prog.drop s.pc.toNat) = .instr (.branchIfZero target) rest ∧ s.flags.z = true ∨
        decode (s.prog.drop s.pc.toNat) = .instr (.branchIfCarry target) rest ∧ s.flags.c = true))

/-! ### The adder -/

/-- What `Add8` computes (R101): the wrapped sum, and each flag by its law; V is signed overflow. -/
def Obligations.AdderLaws : Prop :=
  ∀ a b : Byte,
    (add8 a b).r.toNat = (a.toNat + b.toNat) % 256 ∧
    ((add8 a b).flags.c = true ↔ 256 ≤ a.toNat + b.toNat) ∧
    ((add8 a b).flags.z = true ↔ (add8 a b).r = 0#8) ∧
    (add8 a b).flags.n = (add8 a b).r.getLsbD 7 ∧
    ((add8 a b).flags.v = true ↔
      a.getLsbD 7 = b.getLsbD 7 ∧ (add8 a b).r.getLsbD 7 ≠ a.getLsbD 7) ∧
    ((add8 a b).flags.v = true ↔ a.toInt + b.toInt < -128 ∨ 127 < a.toInt + b.toInt)

/-- SUB's result and flags (R109): the difference; Z for equality; C for `b ≠ 0` and `a ≥ b`; V true signed overflow
except at `b = 0x80`, where it is the sign of `a` (the spec's decision D11). -/
def Obligations.SubtractionFlags : Prop :=
  ∀ a b : Byte,
    (sub8 a b).r = a - b ∧
    ((sub8 a b).flags.z = true ↔ a = b) ∧
    (sub8 a b).flags.n = (a - b).getLsbD 7 ∧
    ((sub8 a b).flags.c = true ↔ b ≠ 0#8 ∧ b.toNat ≤ a.toNat) ∧
    ((sub8 a b).flags.v = true ↔
      if b = 0x80#8 then a.getLsbD 7 = true else a.toInt - b.toInt < -128 ∨ 127 < a.toInt - b.toInt)

/-- What ADDC's flags miss (R108): with carry-in and a plain sum of 0xFF the result is 0 with Z clear, N set and C
clear; with a plain sum of 0x7F it is 0x80 with V and N clear (the spec's decision D10). -/
def Obligations.AddcFlagsIgnoreCarryIn : Prop :=
  ∀ a b : Byte,
    (addc8 a b true).flags = (add8 a b).flags ∧ (addc8 a b false).flags = (add8 a b).flags ∧
    ((a.toNat + b.toNat) % 256 = 0xFF →
      (addc8 a b true).r = 0#8 ∧ (addc8 a b true).flags.z = false ∧ (addc8 a b true).flags.n = true ∧
        (addc8 a b true).flags.c = false) ∧
    (a.toNat + b.toNat = 0x7F →
      (addc8 a b true).r = 0x80#8 ∧ (addc8 a b true).flags.v = false ∧ (addc8 a b true).flags.n = false)

/-- Two-byte addition by ADD then ADDC is exact in its 16-bit result; its carry-out is right but for a carry into a
high byte sum of 0xFF (R203). -/
def Obligations.TwoByteAddition : Prop :=
  ∀ aLo aHi bLo bHi : Byte,
    let lo := add8 aLo bLo
    let hi := addc8 aHi bHi lo.flags.c
    let sum := (aLo.toNat + 256 * aHi.toNat) + (bLo.toNat + 256 * bHi.toNat)
    hi.r.toNat * 256 + lo.r.toNat = sum % 65536 ∧
    ((hi.flags.c = true ↔ 65536 ≤ sum) ↔ ¬(lo.flags.c = true ∧ aHi.toNat + bHi.toNat = 255))

/-- `ADD r, r` gives every register the value `SHL r` gives it, with the bit SHL loses in Carry (R132); COMPLEMENT then
INC is the negation SUB makes, with no flag changed (R138). The shift's direction and COMPLEMENT's truth table are the
spec's general knowledge G1 and G3 (log 21). -/
def Obligations.ShiftAndNegationIdioms : Prop :=
  (∀ (r : Reg) (s : State), s.stk.length + 5 ≤ Config.stackDepth →
    ∃ t u, exec (.add r r) s = .next t ∧ exec (.shl r) s = .next u ∧ t.regs = u.regs ∧
      t.flags.c = (getReg s.regs r).getLsbD 7) ∧
  (∀ (r : Reg) (s : State),
    ∃ t u, exec (.complement r) s = .next t ∧ exec (.inc r) t = .next u ∧
      getReg u.regs r = neg8 (getReg s.regs r) ∧
      (getReg u.regs r).toNat = (256 - (getReg s.regs r).toNat) % 256 ∧ otherRegsSame r s u ∧ u.flags = s.flags) ∧
  (∀ a : Byte, (add8 a a).r = a <<< 1 ∧ (add8 a a).flags.c = a.getLsbD 7 ∧
    neg8 a = inc8 (~~~a) ∧ (neg8 a).toNat = (256 - a.toNat) % 256)

/-! ### The instructions -/

/-- ADD (R110), with room on the stack for its five saved registers. The errors before
execution are in the order of decision D16 (R84, R85, R179); the event is log 8 and decision D20 (R160). -/
def Obligations.AddInstruction : Prop :=
  (∀ rd rs, encode (.add rd rs) = [0x00#8, selectorOf rd, selectorOf rs]) ∧ fetchErrors .rr 0x00#8 ∧
  ∀ (rd rs : Reg) (s : State), s.memoryWf → s.stk.length + 5 ≤ Config.stackDepth →
    ∃ t, exec (.add rd rs) s = .next t ∧
      getReg t.regs rd = (add8 (getReg s.regs rd) (getReg s.regs rs)).r ∧ otherRegsSame rd s t ∧
      t.flags = (add8 (getReg s.regs rd) (getReg s.regs rs)).flags ∧
      memoryStored 10 (add8 (getReg s.regs rd) (getReg s.regs rs)).r s t ∧
      t.inputPos = s.inputPos ∧ completed (.add rd rs) (s.iaddr + 3#8) s t

/-- SUB (R111): the adder on the negated second operand; room on the stack for the nested call. Keeping the adder's
flags is the spec's decision D11, the operands' roles D6 (R63). The errors before
execution are in the order of decision D16 (R84, R85, R179); the event is log 8 and decision D20 (R160). -/
def Obligations.SubInstruction : Prop :=
  (∀ rd rs, encode (.sub rd rs) = [0x01#8, selectorOf rd, selectorOf rs]) ∧ fetchErrors .rr 0x01#8 ∧
  ∀ (rd rs : Reg) (s : State), s.memoryWf → s.stk.length + 10 ≤ Config.stackDepth →
    ∃ t, exec (.sub rd rs) s = .next t ∧
      getReg t.regs rd = getReg s.regs rd - getReg s.regs rs ∧ otherRegsSame rd s t ∧
      t.flags = (add8 (getReg s.regs rd) (~~~(getReg s.regs rs) + 1#8)).flags ∧
      memoryStored 10 (getReg s.regs rd - getReg s.regs rs) s t ∧
      t.inputPos = s.inputPos ∧ completed (.sub rd rs) (s.iaddr + 3#8) s t

/-- ADDC (R112): the carry-in in the register alone, the scratch cell and the flags from the plain sum; with the
Carry flag clear the register too holds the plain sum. Keeping these flags is the spec's decision D10, the operands'
roles D6 (R63). The errors before
execution are in the order of decision D16 (R84, R85, R179); the event is log 8 and decision D20 (R160). -/
def Obligations.AddcInstruction : Prop :=
  (∀ rd rs, encode (.addc rd rs) = [0x02#8, selectorOf rd, selectorOf rs]) ∧ fetchErrors .rr 0x02#8 ∧
  ∀ (rd rs : Reg) (s : State), s.memoryWf → s.stk.length + 10 ≤ Config.stackDepth →
    ∃ t, exec (.addc rd rs) s = .next t ∧
      (getReg t.regs rd).toNat =
        ((getReg s.regs rd).toNat + (getReg s.regs rs).toNat + (if s.flags.c then 1 else 0)) % 256 ∧
      otherRegsSame rd s t ∧
      t.flags = (add8 (getReg s.regs rd) (getReg s.regs rs)).flags ∧
      memoryStored 10 (getReg s.regs rd + getReg s.regs rs) s t ∧
      t.inputPos = s.inputPos ∧ completed (.addc rd rs) (s.iaddr + 3#8) s t

/-- INC (R113): wraps, with no flag and no memory written. Writing back to the register it names is the spec's decision
D8. The errors before
execution are in the order of decision D16 (R84, R85, R179); the event is log 8 and decision D20 (R160). -/
def Obligations.IncInstruction : Prop :=
  (∀ rd, encode (.inc rd) = [0x03#8, selectorOf rd]) ∧ fetchErrors .r 0x03#8 ∧
  ∀ (rd : Reg) (s : State), ∃ t, exec (.inc rd) s = .next t ∧
    (getReg t.regs rd).toNat = ((getReg s.regs rd).toNat + 1) % 256 ∧ otherRegsSame rd s t ∧
    t.flags = s.flags ∧ memorySame s t ∧ t.inputPos = s.inputPos ∧ completed (.inc rd) (s.iaddr + 2#8) s t

/-- LOAD_DIRECT (R120): the cell at the operand byte, or BoundsError from 100 on. The errors before
execution are in the order of decision D16 (R84, R85, R179); the event is log 8 and decision D20 (R160). -/
def Obligations.LoadDirectInstruction : Prop :=
  (∀ r addr, encode (.loadDirect r addr) = [0x04#8, selectorOf r, addr]) ∧ fetchErrors .ra 0x04#8 ∧
  ∀ (r : Reg) (addr : Byte) (s : State),
    (addr.toNat ≤ 99 → ∃ t, exec (.loadDirect r addr) s = .next t ∧
      getReg t.regs r = memLookup s.mem addr.toNat ∧ otherRegsSame r s t ∧ t.flags = s.flags ∧ memorySame s t ∧
      t.inputPos = s.inputPos ∧ completed (.loadDirect r addr) (s.iaddr + 3#8) s t) ∧
    (99 < addr.toNat → ∃ t, exec (.loadDirect r addr) s = .next t ∧
      errorIs .boundsError s.iaddr (some s.ir) addr t ∧ keptByError s t) ∧
    (99 < addr.toNat → ∀ rest, s.st = .fetch → decode (s.prog.drop s.pc.toNat) = .instr (.loadDirect r addr) rest →
      stepRaises .boundsError (some 0x04#8) addr s)

/-- READ_IO (R121) when the source has a value: the next value of `INPUT` in the register, the cursor moved by one. The errors before
execution are in the order of decision D16 (R84, R85, R179); the event is log 8 and decision D20 (R160). -/
def Obligations.ReadIoInstruction : Prop :=
  (∀ rd, encode (.readIo rd) = [0x05#8, selectorOf rd]) ∧ fetchErrors .r 0x05#8 ∧
  ∀ (rd : Reg) (v : Byte) (s : State), inputAnswer s.input s.inputPos = some (.value v) →
    ∃ t, exec (.readIo rd) s = .next t ∧
      getReg t.regs rd = v ∧ otherRegsSame rd s t ∧ t.flags = s.flags ∧ memorySame s t ∧
      t.inputPos = s.inputPos + 1 ∧ completed (.readIo rd) (s.iaddr + 2#8) s t

/-- READ_IO when no value will come, its source's listed answers used up and nothing after them (R157, R174):
InputUnavailable; the register is not written. The detail is a free value (log 10). -/
def Obligations.ReadIoWithoutInput : Prop :=
  ∀ (rd : Reg) (s : State), s.input.tail = .ends → s.input.answers.length ≤ s.inputPos →
    (∃ t d, exec (.readIo rd) s = .next t ∧ errorIs .inputUnavailable s.iaddr (some s.ir) d t ∧ keptByError s t) ∧
    (∀ rest, s.st = .fetch → decode (s.prog.drop s.pc.toNat) = .instr (.readIo rd) rest →
      ∃ t d, step s = .next t ∧ errorIs .inputUnavailable s.pc (some 0x05#8) d t ∧ keptByError s t)

/-- READ_IO while the source has no answer yet (R80, R90): the machine stays in EXECUTE with nothing changed but the
source's cursor, and the next step resumes the same READ_IO. That the source can stall for a number of steps is the
model's choice (log 7). -/
def Obligations.ReadIoWaitsAndResumes : Prop :=
  ∀ (rd : Reg) (s : State), s.st = .execute → s.ir = 0x05#8 → s.op1 = selectorOf rd →
    step s = exec (.readIo rd) s ∧
    (inputAnswer s.input s.inputPos = some .notYet → step s = .next { s with inputPos := s.inputPos + 1 })

/-- STORE (R122): the register in the cell at the operand byte, or BoundsError from 100 on with no cell written. Register
first, address second is the spec's decision D7, rejecting the address D12. The errors before
execution are in the order of decision D16 (R84, R85, R179); the event is log 8 and decision D20 (R160). -/
def Obligations.StoreInstruction : Prop :=
  (∀ r addr, encode (.store r addr) = [0x06#8, selectorOf r, addr]) ∧ fetchErrors .ra 0x06#8 ∧
  (∀ addr, effectiveAddress addr = addr.toNat) ∧
  ∀ (r : Reg) (addr : Byte) (s : State), s.memoryWf →
    (addr.toNat ≤ 99 → ∃ t, exec (.store r addr) s = .next t ∧
      t.regs = s.regs ∧ t.flags = s.flags ∧ memoryStored (effectiveAddress addr) (getReg s.regs r) s t ∧
      t.inputPos = s.inputPos ∧ completed (.store r addr) (s.iaddr + 3#8) s t) ∧
    (99 < addr.toNat → ∃ t, exec (.store r addr) s = .next t ∧
      errorIs .boundsError s.iaddr (some s.ir) addr t ∧ keptByError s t) ∧
    (99 < addr.toNat → ∀ rest, s.st = .fetch → decode (s.prog.drop s.pc.toNat) = .instr (.store r addr) rest →
      stepRaises .boundsError (some 0x06#8) addr s)

/-- SHL (R130): bit i to bit i + 1, bit 0 becomes 0, old bit 7 is discarded; no flag. The direction is the spec's
general knowledge G1 (log 21), writing back to the named register its decision D8. The errors before
execution are in the order of decision D16 (R84, R85, R179); the event is log 8 and decision D20 (R160). -/
def Obligations.ShlInstruction : Prop :=
  (∀ rd, encode (.shl rd) = [0x07#8, selectorOf rd]) ∧ fetchErrors .r 0x07#8 ∧
  ∀ (rd : Reg) (s : State), ∃ t, exec (.shl rd) s = .next t ∧
    (getReg t.regs rd).toNat = (getReg s.regs rd).toNat * 2 % 256 ∧ otherRegsSame rd s t ∧
    t.flags = s.flags ∧ memorySame s t ∧ t.inputPos = s.inputPos ∧ completed (.shl rd) (s.iaddr + 2#8) s t

/-- SHR (R131): bit i + 1 to bit i, bit 7 becomes 0, old bit 0 is discarded; no flag. The direction is the spec's
general knowledge G2 (log 21), writing back to the named register its decision D8. The errors before
execution are in the order of decision D16 (R84, R85, R179); the event is log 8 and decision D20 (R160). -/
def Obligations.ShrInstruction : Prop :=
  (∀ rd, encode (.shr rd) = [0x08#8, selectorOf rd]) ∧ fetchErrors .r 0x08#8 ∧
  ∀ (rd : Reg) (s : State), ∃ t, exec (.shr rd) s = .next t ∧
    (getReg t.regs rd).toNat = (getReg s.regs rd).toNat / 2 ∧ otherRegsSame rd s t ∧
    t.flags = s.flags ∧ memorySame s t ∧ t.inputPos = s.inputPos ∧ completed (.shr rd) (s.iaddr + 2#8) s t

/-- AND (R135), bit by bit. The first operand as destination is the spec's decision D6, the truth table its general
knowledge G3 (log 21). The errors before
execution are in the order of decision D16 (R84, R85, R179); the event is log 8 and decision D20 (R160). -/
def Obligations.AndInstruction : Prop :=
  (∀ rd rs, encode (.and rd rs) = [0x09#8, selectorOf rd, selectorOf rs]) ∧ fetchErrors .rr 0x09#8 ∧
  ∀ (rd rs : Reg) (s : State), ∃ t, exec (.and rd rs) s = .next t ∧
    (∀ k, (getReg t.regs rd).getLsbD k = ((getReg s.regs rd).getLsbD k && (getReg s.regs rs).getLsbD k)) ∧
    otherRegsSame rd s t ∧ t.flags = s.flags ∧ memorySame s t ∧ t.inputPos = s.inputPos ∧
    completed (.and rd rs) (s.iaddr + 3#8) s t

/-- OR (R136), bit by bit. The first operand as destination is the spec's decision D6, the truth table its general
knowledge G3 (log 21). The errors before
execution are in the order of decision D16 (R84, R85, R179); the event is log 8 and decision D20 (R160). -/
def Obligations.OrInstruction : Prop :=
  (∀ rd rs, encode (.or rd rs) = [0x0A#8, selectorOf rd, selectorOf rs]) ∧ fetchErrors .rr 0x0A#8 ∧
  ∀ (rd rs : Reg) (s : State), ∃ t, exec (.or rd rs) s = .next t ∧
    (∀ k, (getReg t.regs rd).getLsbD k = ((getReg s.regs rd).getLsbD k || (getReg s.regs rs).getLsbD k)) ∧
    otherRegsSame rd s t ∧ t.flags = s.flags ∧ memorySame s t ∧ t.inputPos = s.inputPos ∧
    completed (.or rd rs) (s.iaddr + 3#8) s t

/-- XOR (R137), bit by bit, 0 when both operands are one register. The first operand as destination is the spec's
decision D6, the truth table its general knowledge G3 (log 21). The errors before
execution are in the order of decision D16 (R84, R85, R179); the event is log 8 and decision D20 (R160). -/
def Obligations.XorInstruction : Prop :=
  (∀ rd rs, encode (.xor rd rs) = [0x0B#8, selectorOf rd, selectorOf rs]) ∧ fetchErrors .rr 0x0B#8 ∧
  ∀ (rd rs : Reg) (s : State), ∃ t, exec (.xor rd rs) s = .next t ∧
    (∀ k, (getReg t.regs rd).getLsbD k = ((getReg s.regs rd).getLsbD k ^^ (getReg s.regs rs).getLsbD k)) ∧
    (rd = rs → getReg t.regs rd = 0#8) ∧
    otherRegsSame rd s t ∧ t.flags = s.flags ∧ memorySame s t ∧ t.inputPos = s.inputPos ∧
    completed (.xor rd rs) (s.iaddr + 3#8) s t

/-- COMPLEMENT (R138): the one's complement, 255 minus the register. Writing back to the register it names is the
spec's decision D8, the truth table its general knowledge G3 (log 21). The errors before
execution are in the order of decision D16 (R84, R85, R179); the event is log 8 and decision D20 (R160). -/
def Obligations.ComplementInstruction : Prop :=
  (∀ rd, encode (.complement rd) = [0x0C#8, selectorOf rd]) ∧ fetchErrors .r 0x0C#8 ∧
  ∀ (rd : Reg) (s : State), ∃ t, exec (.complement rd) s = .next t ∧
    (getReg t.regs rd).toNat = 255 - (getReg s.regs rd).toNat ∧
    otherRegsSame rd s t ∧ t.flags = s.flags ∧ memorySame s t ∧ t.inputPos = s.inputPos ∧
    completed (.complement rd) (s.iaddr + 2#8) s t

/-- BRANCH_IF_ZERO (R145): to the operand byte when Z is set, past the operand otherwise. The operand byte is fetched
in both cases (R84, R179), and no value of the target is an error here. The event is log 8 and decision D20 (R160). -/
def Obligations.BranchIfZeroInstruction : Prop :=
  (∀ target, encode (.branchIfZero target) = [0x0D#8, target]) ∧ fetchErrors .t 0x0D#8 ∧
  ∀ (target : Byte) (s : State), ∃ t, exec (.branchIfZero target) s = .next t ∧
    t.regs = s.regs ∧ t.flags = s.flags ∧ memorySame s t ∧ t.inputPos = s.inputPos ∧
    completed (.branchIfZero target) (if s.flags.z then target else s.iaddr + 2#8) s t

/-- BRANCH_IF_CARRY (R146): to the operand byte when C is set, past the operand otherwise. The operand byte is fetched
in both cases (R84, R179), and no value of the target is an error here. The event is log 8 and decision D20 (R160). -/
def Obligations.BranchIfCarryInstruction : Prop :=
  (∀ target, encode (.branchIfCarry target) = [0x0E#8, target]) ∧ fetchErrors .t 0x0E#8 ∧
  ∀ (target : Byte) (s : State), ∃ t, exec (.branchIfCarry target) s = .next t ∧
    t.regs = s.regs ∧ t.flags = s.flags ∧ memorySame s t ∧ t.inputPos = s.inputPos ∧
    completed (.branchIfCarry target) (if s.flags.c then target else s.iaddr + 2#8) s t

/-- HALT (R148): HALTED with `pc` and everything else kept, also as the last loaded byte. Keeping `pc` on the HALT byte
is the spec's decision D14. That HALT too appends an event is decision D20 and log 8 (R160; open in the source, N17). -/
def Obligations.HaltInstruction : Prop :=
  encode .halt = [0x10#8] ∧
  (∀ s : State, ∃ t, exec .halt s = .next t ∧ t.st = .halted ∧ t.pc = s.pc ∧ t.regs = s.regs ∧ t.flags = s.flags ∧
    memorySame s t ∧ t.stk = s.stk ∧ t.err = s.err ∧ t.prog = s.prog ∧ t.input = s.input ∧
    t.inputPos = s.inputPos ∧
    t.events = s.events ++ [{ iaddr := s.iaddr, op := .halt, operands := [], regs := s.regs, flags := s.flags }]) ∧
  (∀ s : State, s.st = .fetch → s.prog[s.pc.toNat]? = some 0x10#8 →
    ∃ t, step s = .next t ∧ t.st = .halted ∧ t.pc = s.pc ∧ step t = .next t)

/-- With Carry clear, ADDC does what ADD does: register, flags, memory, `pc` (R112). -/
def Obligations.AddcWithoutCarryIsAdd : Prop :=
  ∀ (rd rs : Reg) (s : State), s.stk.length + 10 ≤ Config.stackDepth → s.flags.c = false →
    ∃ t u, exec (.addc rd rs) s = .next t ∧ exec (.add rd rs) s = .next u ∧
      t.regs = u.regs ∧ t.flags = u.flags ∧ t.mem = u.mem ∧ t.pc = u.pc ∧ t.stk = u.stk ∧ t.st = u.st

/-! ### Who writes and reads what -/

/-- The writers of the flags (R18): ADD, SUB and ADDC write all four, from their adder call; no other instruction
changes any. -/
def Obligations.FlagWriters : Prop :=
  (∀ (rd rs : Reg) (s t : State), s.stk.length + 10 ≤ Config.stackDepth →
    (exec (.add rd rs) s = .next t → t.flags = (add8 (getReg s.regs rd) (getReg s.regs rs)).flags) ∧
    (exec (.sub rd rs) s = .next t → t.flags = (add8 (getReg s.regs rd) (~~~(getReg s.regs rs) + 1#8)).flags) ∧
    (exec (.addc rd rs) s = .next t → t.flags = (add8 (getReg s.regs rd) (getReg s.regs rs)).flags)) ∧
  (∀ (i : Instr) (s t : State),
    mnemonicOfInstr i ≠ .add → mnemonicOfInstr i ≠ .sub → mnemonicOfInstr i ≠ .addc →
    exec i s = .next t → t.flags = s.flags)

/-- V and N are read by no instruction (R19): with them changed, every instruction does the same to everything but the
flags of the instructions that leave flags alone and the snapshot in the event. -/
def Obligations.OverflowAndNegativeNeverRead : Prop :=
  ∀ (i : Instr) (s t u : State) (v n : Bool),
    exec i s = .next t → exec i { s with flags := { s.flags with v := v, n := n } } = .next u →
    u.regs = t.regs ∧ u.pc = t.pc ∧ u.st = t.st ∧ u.err = t.err ∧ u.stk = t.stk ∧ u.mem = t.mem ∧
      u.flags.c = t.flags.c ∧ u.flags.z = t.flags.z ∧ u.inputPos = t.inputPos

/-- The writers of data memory (R51, R103): STORE its address, ADD, SUB and ADDC address 10; nothing else changes a
cell. (The invariant rules out stack faults, after which memory is unspecified.) -/
def Obligations.MemoryWriters : Prop :=
  ∀ (i : Instr) (s t : State), s.stackEmpty → exec i s = .next t →
    ∀ a : Nat, memLookup t.mem a ≠ memLookup s.mem a →
      (∃ r addr, i = .store r addr ∧ a = addr.toNat ∧ a ≤ 99) ∨
      (a = 10 ∧ ∃ rd rs, i = .add rd rs ∨ i = .sub rd rs ∨ i = .addc rd rs)

/-- No instruction writes a register it does not name as its destination (R12). -/
def Obligations.RegisterWriters : Prop :=
  ∀ (i : Instr) (s t : State) (x : Reg), s.stackEmpty → exec i s = .next t →
    getReg t.regs x ≠ getReg s.regs x →
      (∃ rs, i = .add x rs ∨ i = .sub x rs ∨ i = .addc x rs ∨ i = .and x rs ∨ i = .or x rs ∨ i = .xor x rs) ∨
      i = .inc x ∨ i = .shl x ∨ i = .shr x ∨ i = .complement x ∨ i = .readIo x ∨ ∃ addr, i = .loadDirect x addr

/-- No step changes the program image or the input sequence (R31, R45, R57). -/
def Obligations.ImageAndInputConstant : Prop :=
  ∀ s t : State, step s = .next t → t.prog = s.prog ∧ t.input = s.input

/-- Telemetry (R160): a completed instruction, HALT included, appends one event with its own address and the registers
and flags after it; a step that faults, waits or is in a terminal state appends none (the spec's decision D20;
the list in the state is log 8). -/
def Obligations.OneEventPerCompletedInstruction : Prop :=
  ∀ (s t : State) (i : Instr) (rest : List Byte), s.st = .fetch → decode (s.prog.drop s.pc.toNat) = .instr i rest →
    step s = .next t →
    (t.st = .fetch ∨ t.st = .halted →
      t.events = s.events ++ [{ iaddr := s.pc, op := mnemonicOfInstr i, operands := eventOperands i,
                                regs := t.regs, flags := t.flags }]) ∧
    (t.st = .execute ∨ t.st = .faulted → t.events = s.events)

/-! ### Arithmetic Unit calls and the temporary stack -/

/-- Push and Pop (R24, R25): last in, first out; a full stack raises StackOverflow, an empty one StackUnderflow.
The finite stack is the spec's decision D3, its depth log 9. -/
def Obligations.PushAndPop : Prop :=
  ∀ (v : Byte) (s : State),
    (s.stk.length < Config.stackDepth → ∃ t, push v s = .ok t ∧ t.stk = s.stk ++ [v] ∧ pop t = .ok (v, s)) ∧
    (s.stk.length = Config.stackDepth → push v s = .error { kind := .stackOverflow, detail := none }) ∧
    (s.stk = [] → pop s = .error { kind := .stackUnderflow, detail := none })

/-- Every Arithmetic Unit call restores the registers and the stack and touches no flag; only the scratch cell is
written, with the plain adder result (R103 to R106). The order of the pushes is the spec's decision D23. -/
def Obligations.AluCallsRestoreRegistersAndStack : Prop :=
  ∀ (a b : Byte) (cin : Bool) (s : State), s.stk.length + 10 ≤ Config.stackDepth →
    ∃ ta ts tc,
      aluAdd a b s = .ok (add8 a b, ta) ∧ aluSub a b s = .ok (sub8 a b, ts) ∧
      aluAddc a b cin s = .ok (addc8 a b cin, tc) ∧
      (ta.regs = s.regs ∧ ta.stk = s.stk ∧ ta.flags = s.flags ∧ ta.pc = s.pc ∧
        ta.mem = memInsert s.mem 10 (add8 a b).r) ∧
      (ts.regs = s.regs ∧ ts.stk = s.stk ∧ ts.flags = s.flags ∧ ts.pc = s.pc ∧
        ts.mem = memInsert s.mem 10 (sub8 a b).r) ∧
      (tc.regs = s.regs ∧ tc.stk = s.stk ∧ tc.flags = s.flags ∧ tc.pc = s.pc ∧
        tc.mem = memInsert s.mem 10 (add8 a b).r)

/-- On a stack too full for the call, ADD, SUB and ADDC take StackOverflow (R175, R176); its detail, and every other
piece of the core's state but `st` and `err`, is unspecified (R178). No run reaches such a stack. The kind is the
spec's decision D3, the depth and the free state are logs 9 and 11. -/
def Obligations.StackOverflowInAdder : Prop :=
  ∀ (rd rs : Reg) (s : State),
    (Config.stackDepth < s.stk.length + 5 →
      ∃ t d, exec (.add rd rs) s = .next t ∧ errorIs .stackOverflow s.iaddr (some s.ir) d t) ∧
    (Config.stackDepth < s.stk.length + 10 →
      (∃ t d, exec (.sub rd rs) s = .next t ∧ errorIs .stackOverflow s.iaddr (some s.ir) d t) ∧
      (∃ t d, exec (.addc rd rs) s = .next t ∧ errorIs .stackOverflow s.iaddr (some s.ir) d t))

/-- Stack faults are caused by no program, input or initial state (R107): on every run from every legal start the
stack is empty between steps and no error recorded is a stack fault. -/
def Obligations.StackFaultsNeverHappen : Prop :=
  ∀ (regs : RegFile) (memInit : Memory) (prog : List Byte) (input : InputSource) (k : Nat) (t : State),
    legalStart memInit prog →
    Host.Core.run Sys2Proof.core k (State.start regs memInit prog input) = .next t →
    t.stk = [] ∧ t.err.kind ≠ .stackOverflow ∧ t.err.kind ≠ .stackUnderflow

/-! ### Data memory as operations -/

/-- MemRead and MemWrite (R42, R43): addresses 0 to 99; above, BoundsError with the address, and nothing written. -/
def Obligations.MemoryAccessBounds : Prop :=
  ∀ (addr v : Byte) (s : State),
    (addr.toNat ≤ 99 → memRead addr s = .ok (memLookup s.mem addr.toNat) ∧
      ∃ t, memWrite addr v s = .ok t ∧ t = { s with mem := t.mem }) ∧
    (99 < addr.toNat → memRead addr s = .error { kind := .boundsError, detail := some addr } ∧
      memWrite addr v s = .error { kind := .boundsError, detail := some addr })

/-- A read returns the latest write to its cell, and a write leaves the other cells alone (R54). -/
def Obligations.ReadReturnsLatestWrite : Prop :=
  ∀ (addr other v : Byte) (s t : State), s.memoryWf → memWrite addr v s = .ok t →
    memRead addr t = .ok v ∧ t.memoryWf ∧ (other ≠ addr → memRead other t = memRead other s)

/-! ### Errors -/

/-- Errors are precise (R176 to R178): from every good state, a step that enters FAULTED changes nothing but `st` and
`err`, and `err.pc` is the `pc` of the failing instruction, which it kept. The spec marks this its decision D15. -/
def Obligations.ErrorsArePrecise : Prop :=
  ∀ s t : State, s.Good → s.st ≠ .faulted → step s = .next t → t.st = .faulted →
    keptByError s t ∧ t.err.pc = s.pc ∧ t.err.kind ≠ .noError

/-- The error record is written only on entry to FAULTED, and holds from then on (R23, R181). -/
def Obligations.ErrorRecordWrittenOnce : Prop :=
  ∀ s t : State, step s = .next t → (t.st ≠ .faulted → t.err = s.err) ∧ (s.st = .faulted → t.err = s.err)

/-! ### Reset, invariants, the host -/

/-- What reset leaves, for every REG_RESET, MEM_INIT, PROG and INPUT (R16, R20, R22, R27, R30): `pc` 0, flags clear,
FETCH, no error, an empty stack; and at `State.reset` every data memory cell is 0 (R41) and nothing is loaded (the
model's choice, log 2). `pc` 0 and the empty stack are the spec's decisions D2 and D3. -/
def Obligations.ResetLeaves : Prop :=
  (∀ (regs : RegFile) (memInit : Memory) (prog : List Byte) (input : InputSource),
    let s := State.start regs memInit prog input
    s.pc = 0#8 ∧ s.flags.c = false ∧ s.flags.z = false ∧ s.flags.v = false ∧ s.flags.n = false ∧
      s.st = .fetch ∧ s.err.kind = .noError ∧ s.stk = [] ∧ s.regs = regs ∧ s.mem = memInit ∧ s.inputPos = 0) ∧
  (∀ a : Nat, a ≤ 99 → memLookup State.reset.mem a = 0#8) ∧ State.reset.prog = []

/-- Every legal start is good, and so is `State.reset`. -/
def Obligations.StartIsGood : Prop :=
  State.reset.Good ∧
  ∀ (regs : RegFile) (memInit : Memory) (prog : List Byte) (input : InputSource),
    legalStart memInit prog → (State.start regs memInit prog input).Good

/-- Every step from a good state gives a good state: memory canonical, stack empty, image at most 50 bytes, at an
instruction boundary or in a waiting READ_IO, error record exactly in FAULTED and located at `pc`, no stack fault
recorded (R107). -/
def Obligations.StepKeepsGood : Prop :=
  ∀ s t : State, s.Good → step s = .next t → t.Good

/-- Reset may be applied in any state and puts every row of R30 at its reset value (R161, R195, R196). What stays is the
outside's: image and input (log 16). The model's choices are the registers' reset value (log 3) and the reset values
of `err.pc`, `err.opcode` and `err.detail` (log 5); reset as an input is the spec's decision D26. -/
def Obligations.ResetFromAnyState : Prop :=
  ∀ s : State,
    let t := applyReset s
    t.pc = 0#8 ∧ t.flags = State.reset.flags ∧ t.st = .fetch ∧ t.err = State.reset.err ∧ t.stk = [] ∧
      t.regs = State.reset.regs ∧ (∀ a : Nat, memLookup t.mem a = 0#8) ∧
      t.prog = s.prog ∧ t.input = s.input ∧ (s.imageFits → t.Good)

/-- What the outside may do before a run (R41, R155 to R157, R163, R198), in FETCH with no instruction completed: an
image of at most 50 bytes is taken, a cell 0 to 99 is preset and no other cell changes, the input source is made
ready with its cursor at 0. An oversized image and an address from 100 on are refused; so is each of the three once
an instruction has completed or the machine has left FETCH. That this is what "before the run" means is the
model's choice (log 2). -/
def Obligations.HostActsOnlyBeforeRun : Prop :=
  (∀ (image : List Byte) (s t : State), loadProgram image s = some t →
    image.length ≤ 50 ∧ t = { s with prog := image } ∧ s.st = .fetch ∧ s.events = []) ∧
  (∀ (image : List Byte) (s : State), s.st = .fetch → s.events = [] → image.length ≤ 50 →
    loadProgram image s = some { s with prog := image }) ∧
  (∀ (addr v : Byte) (s t : State), presetMemory addr v s = some t →
    addr.toNat ≤ 99 ∧ s.st = .fetch ∧ s.events = [] ∧ (s.memoryWf → t.memoryWf ∧ memLookup t.mem addr.toNat = v) ∧
      ∀ a : Nat, a ≠ addr.toNat → memLookup t.mem a = memLookup s.mem a) ∧
  (∀ (addr v : Byte) (s : State), s.st = .fetch → s.events = [] → addr.toNat ≤ 99 →
    presetMemory addr v s = some { s with mem := memInsert s.mem (effectiveAddress addr) v }) ∧
  (∀ (source : InputSource) (s : State), s.st = .fetch → s.events = [] →
    supplyInput source s = some { s with input := source, inputPos := 0 }) ∧
  (∀ (image : List Byte) (addr v : Byte) (source : InputSource) (s : State), s.events ≠ [] ∨ s.st ≠ .fetch →
    loadProgram image s = none ∧ presetMemory addr v s = none ∧ supplyInput source s = none)

/-! ### The input channel -/

/-- `InRead` (R157): from a finite sequence the byte at the cursor, or InputUnavailable past its end; from an infinite
one the byte at the cursor, always; the cursor moves by one. `INPUT` as a cursor over a sequence is the spec's decision
D19, listed answers with a tail the model's form of it (log 7). -/
def Obligations.InputSequence : Prop :=
  (∀ (bytes : List Byte) (s : State), s.input = { answers := bytes.map .value, tail := .ends } →
    (∀ v, bytes[s.inputPos]? = some v → inRead s = .got v { s with inputPos := s.inputPos + 1 }) ∧
    (bytes.length ≤ s.inputPos → inRead s = .unavailable { kind := .inputUnavailable, detail := none })) ∧
  (∀ (bytes : List Byte) (source : Nat) (s : State), s.input = { answers := bytes.map .value, tail := .values source } →
    inRead s = .got (bytes.getD s.inputPos (Config.inputByte source (s.inputPos - bytes.length)))
      { s with inputPos := s.inputPos + 1 })

/-- An infinite `INPUT` never runs out (R4, R157, R174): READ_IO completes or waits, and no step from a good state
records InputUnavailable. -/
def Obligations.InfiniteInputNeverUnavailable : Prop :=
  (∀ (rd : Reg) (s : State), s.input.tail ≠ .ends →
    ∃ t, exec (.readIo rd) s = .next t ∧ t.inputPos = s.inputPos + 1 ∧ t.err = s.err ∧
      (t.st = .fetch ∧ t.pc = s.iaddr + 2#8 ∨ t.st = .execute ∧ t.pc = s.pc)) ∧
  (∀ s t : State, s.Good → s.st ≠ .faulted → s.input.tail ≠ .ends → step s = .next t →
    t.err.kind ≠ .inputUnavailable)
end

