-- ==== Sys2Proof/Laws/Decode.lean ====
section
/-! SUPPORT. The opcode and selector tables read in both directions, and what resolving operands can answer. -/

namespace Sys2Proof

@[simp] theorem regOf_selectorOf (r : Reg) : regOf (selectorOf r) = some r := by cases r <;> rfl

@[simp] theorem mnemonicOf_opcodeOf (m : Mnemonic) : mnemonicOf (opcodeOf m) = some m := by cases m <;> rfl

theorem selectorOf_of_regOf (sel : Byte) (r : Reg) (h : regOf sel = some r) : sel = selectorOf r := by
  unfold regOf at h
  split at h <;> cases h <;> exact BitVec.eq_of_toNat_eq (by assumption)

theorem opcodeOf_of_mnemonicOf (op : Byte) (m : Mnemonic) (h : mnemonicOf op = some m) : op = opcodeOf m := by
  unfold mnemonicOf at h
  split at h <;> cases h <;> exact BitVec.eq_of_toNat_eq (by assumption)

/-- One resolved register operand: the selector was that register's, or the error is the byte itself. -/
theorem resolveR_cases (make : Reg → Instr) (op1 : Byte) :
    (∃ rd, op1 = selectorOf rd ∧ resolveR make op1 = .ok (make rd)) ∨
      (regOf op1 = none ∧ resolveR make op1 = .error op1) := by
  unfold resolveR
  split
  · next h => exact .inr ⟨h, rfl⟩
  · next rd h => exact .inl ⟨rd, selectorOf_of_regOf _ _ h, rfl⟩

/-- Two resolved register operands: both selectors valid, or the first invalid one is the error. -/
theorem resolveRR_cases (make : Reg → Reg → Instr) (op1 op2 : Byte) :
    (∃ rd rs, op1 = selectorOf rd ∧ op2 = selectorOf rs ∧ resolveRR make op1 op2 = .ok (make rd rs)) ∨
      (regOf op1 = none ∧ resolveRR make op1 op2 = .error op1) ∨
      (regOf op1 ≠ none ∧ regOf op2 = none ∧ resolveRR make op1 op2 = .error op2) := by
  unfold resolveRR
  split
  · next h => exact .inr (.inl ⟨h, rfl⟩)
  · next rd h =>
    split
    · next h2 => exact .inr (.inr ⟨by simp [h], h2, rfl⟩)
    · next rs h2 =>
      exact .inl ⟨rd, rs, selectorOf_of_regOf _ _ h, selectorOf_of_regOf _ _ h2, rfl⟩

theorem encode_length (i : Instr) : (encode i).length = lengthOf (mnemonicOfInstr i) := by cases i <;> rfl

theorem encode_head (i : Instr) : (encode i).head? = some (opcodeOf (mnemonicOfInstr i)) := by cases i <;> rfl

/-- Resolving the operand bytes of an encoding gives the instruction back, whatever stands in for a missing byte. -/
theorem resolve_encode (i : Instr) (x y : Byte) :
    resolve (mnemonicOfInstr i) ((encode i).getD 1 x) ((encode i).getD 2 y) = .ok i := by
  cases i <;> simp [mnemonicOfInstr, encode, resolve, resolveR, resolveRR]

end Sys2Proof
end

