-- ==== Sys2Proof/Laws/Input.lean ====
section
/-! SUPPORT. The input source: what it answers to a request, and everything `inRead` can do. -/

namespace Sys2Proof.Machine

@[simp] theorem tailAnswer_ends (j : Nat) : tailAnswer .ends j = none := rfl
@[simp] theorem tailAnswer_repeats (first : InputAnswer) (more : List InputAnswer) (j : Nat) :
    tailAnswer (.repeats first more) j = some ((first :: more).getD (j % (more.length + 1)) first) := rfl
@[simp] theorem tailAnswer_values (source j : Nat) :
    tailAnswer (.values source) j = some (.value (Config.inputByte source j)) := rfl

/-- Only a source that ends ever answers that no value will come. -/
theorem tailAnswer_eq_none (tail : InputTail) (j : Nat) : tailAnswer tail j = none ↔ tail = .ends := by
  cases tail with
  | ends => simp
  | repeats first more => simp
  | values source => simp
  | replies source => cases h : Config.inputReply source j <;> simp [tailAnswer, h]

theorem inputAnswer_listed (source : InputSource) (k : Nat) (answer : InputAnswer)
    (h : source.answers[k]? = some answer) : inputAnswer source k = some answer := by
  simp [inputAnswer, h]

theorem inputAnswer_tail (source : InputSource) (k : Nat) (h : source.answers.length ≤ k) :
    inputAnswer source k = tailAnswer source.tail (k - source.answers.length) := by
  simp [inputAnswer, List.getElem?_eq_none h]

theorem inputAnswer_eq_none (source : InputSource) (k : Nat) :
    inputAnswer source k = none ↔ source.tail = .ends ∧ source.answers.length ≤ k := by
  by_cases h : source.answers.length ≤ k
  · simp [inputAnswer_tail source k h, tailAnswer_eq_none, h]
  · obtain ⟨answer, ha⟩ : ∃ answer, source.answers[k]? = some answer := ⟨_, List.getElem?_eq_getElem (by omega)⟩
    simp [inputAnswer_listed source k answer ha, h]

/-- Everything a request can come to: a value or a wait, each moving the cursor by one and changing nothing else, or
the answer that no value will come, from a source that ends. -/
theorem inRead_cases (s : State) :
    (∃ v, inputAnswer s.input s.inputPos = some (.value v) ∧ inRead s = .got v { s with inputPos := s.inputPos + 1 }) ∨
    (inputAnswer s.input s.inputPos = some .notYet ∧ inRead s = .waiting { s with inputPos := s.inputPos + 1 }) ∨
    (s.input.tail = .ends ∧ s.input.answers.length ≤ s.inputPos ∧
      inRead s = .unavailable { kind := .inputUnavailable, detail := none }) := by
  cases h : inputAnswer s.input s.inputPos with
  | none =>
    obtain ⟨he, hl⟩ := (inputAnswer_eq_none _ _).1 h
    exact .inr (.inr ⟨he, hl, by simp [inRead, h]⟩)
  | some answer =>
    cases answer with
    | value v => exact .inl ⟨v, rfl, by simp [inRead, h]⟩
    | notYet => exact .inr (.inl ⟨rfl, by simp [inRead, h]⟩)

end Sys2Proof.Machine
end

