-- ==== Sys2Proof/Laws/Memory.lean ====
section
/-! SUPPORT. Data memory: a write is read back, leaves every other cell alone, and keeps the canonical form. -/

namespace Sys2Proof.Machine

@[simp] theorem Memory.wf_nil : Memory.wf [] = true := rfl

theorem Memory.wf_cons (k : Nat) (v : Byte) (m : Memory) :
    Memory.wf ((k, v) :: m) = true ↔
      k < Config.memSize ∧ v ≠ Config.memDefault ∧ (∀ cell ∈ m, k < cell.1) ∧ Memory.wf m = true := by
  simp [Memory.wf, and_assoc]

/-- A cell below every listed address is not listed. -/
theorem memLookup_eq_default (m : Memory) (addr : Nat) (h : ∀ cell ∈ m, addr ≠ cell.1) :
    memLookup m addr = Config.memDefault := by
  induction m with
  | nil => rfl
  | cons cell rest ih =>
    have hne : cell.1 ≠ addr := (h cell (by simp)).symm
    rw [memLookup, if_neg hne, ih fun c hc => h c (by simp [hc])]

theorem memLookup_memInsert_other (m : Memory) (addr a : Nat) (v : Byte) (h : a ≠ addr) :
    memLookup (memInsert m addr v) a = memLookup m a := by
  induction m with
  | nil => by_cases hv : v = Config.memDefault <;> simp [memInsert, memLookup, hv, h.symm]
  | cons cell rest ih =>
    obtain ⟨k, w⟩ := cell
    unfold memInsert
    split
    · split
      · rfl
      · simp [memLookup, h.symm]
    · split
      · next he =>
        subst he
        split <;> simp [memLookup, h.symm]
      · simp [memLookup, ih]

theorem memLookup_memInsert_same (m : Memory) (addr : Nat) (v : Byte) (hm : Memory.wf m = true) :
    memLookup (memInsert m addr v) addr = v := by
  induction m with
  | nil => by_cases hv : v = Config.memDefault <;> simp [memInsert, memLookup, hv]
  | cons cell rest ih =>
    obtain ⟨k, w⟩ := cell
    obtain ⟨-, -, hlt, hrest⟩ := (Memory.wf_cons k w rest).1 hm
    unfold memInsert
    split
    · next hk =>
      split
      · next hv =>
        rw [hv, memLookup_eq_default]
        intro c hc
        rcases List.mem_cons.1 hc with rfl | hc
        · exact Nat.ne_of_lt hk
        · exact Nat.ne_of_lt (Nat.lt_trans hk (hlt c hc))
      · simp [memLookup]
    · split
      · next he =>
        split
        · next hv =>
          rw [hv, memLookup_eq_default]
          intro c hc
          exact he ▸ Nat.ne_of_lt (hlt c hc)
        · simp [memLookup]
      · next hk he => simp [memLookup, Ne.symm he, ih hrest]

/-- Every cell a write lists was listed before or is the written one. -/
theorem memInsert_addresses (m : Memory) (addr : Nat) (v : Byte) :
    ∀ cell ∈ memInsert m addr v, cell.1 = addr ∨ cell ∈ m := by
  induction m with
  | nil => by_cases hv : v = Config.memDefault <;> simp [memInsert, hv]
  | cons cell rest ih =>
    obtain ⟨k, w⟩ := cell
    intro c hc
    unfold memInsert at hc
    split at hc
    · split at hc
      · exact .inr hc
      · rcases List.mem_cons.1 hc with rfl | hc
        · exact .inl rfl
        · exact .inr hc
    · split at hc
      · split at hc
        · exact .inr (List.mem_cons_of_mem _ hc)
        · rcases List.mem_cons.1 hc with rfl | hc
          · exact .inl rfl
          · exact .inr (List.mem_cons_of_mem _ hc)
      · rcases List.mem_cons.1 hc with rfl | hc
        · exact .inr (by simp)
        · exact (ih c hc).imp id (List.mem_cons_of_mem _)

/-- A write to an existing cell keeps the canonical form. -/
theorem memInsert_wf (m : Memory) (addr : Nat) (v : Byte) (ha : addr < Config.memSize)
    (hm : Memory.wf m = true) : Memory.wf (memInsert m addr v) = true := by
  induction m with
  | nil => by_cases hv : v = Config.memDefault <;> simp [memInsert, Memory.wf, hv, ha]
  | cons cell rest ih =>
    obtain ⟨k, w⟩ := cell
    obtain ⟨hk, hw, hlt, hrest⟩ := (Memory.wf_cons k w rest).1 hm
    unfold memInsert
    split
    · next hak =>
      split
      · exact hm
      · next hv =>
        refine (Memory.wf_cons _ _ _).2 ⟨ha, hv, fun c hc => ?_, hm⟩
        rcases List.mem_cons.1 hc with rfl | hc
        · exact hak
        · exact Nat.lt_trans hak (hlt c hc)
    · split
      · next hak he =>
        subst he
        split
        · exact hrest
        · next hv => exact (Memory.wf_cons _ _ _).2 ⟨ha, hv, hlt, hrest⟩
      · next hak he =>
        refine (Memory.wf_cons _ _ _).2 ⟨hk, hw, fun c hc => ?_, ih hrest⟩
        rcases memInsert_addresses rest addr v c hc with h | h
        · omega
        · exact hlt c h

theorem foldl_memInsert_wf (f : Nat → Byte) (addrs : List Nat) (m : Memory) (hm : Memory.wf m = true)
    (ha : ∀ a ∈ addrs, a < Config.memSize) :
    Memory.wf (addrs.foldl (fun m a => memInsert m a (f a)) m) = true := by
  induction addrs generalizing m with
  | nil => exact hm
  | cons a rest ih =>
    exact ih _ (memInsert_wf m a (f a) (ha a (by simp)) hm) fun b hb => ha b (by simp [hb])

theorem freeMemory_wf (n : Nat) : Memory.wf (freeMemory n) = true :=
  foldl_memInsert_wf (fun a => Config.freeByte (n + a)) _ [] rfl fun _ ha => List.mem_range.1 ha

theorem scratch_exists : effectiveAddress Config.scratchAddr < Config.memSize := by decide

theorem writeScratch_wf (v : Byte) (s : State) (h : Memory.wf s.mem = true) :
    Memory.wf (writeScratch v s).mem = true :=
  memInsert_wf _ _ _ scratch_exists h

theorem memWrite_wf (addr v : Byte) (s t : State) (h : Memory.wf s.mem = true) (ht : memWrite addr v s = .ok t) :
    Memory.wf t.mem = true := by
  unfold memWrite at ht
  split at ht
  · next ha =>
    cases ht
    exact memInsert_wf _ _ _ ha h
  · cases ht

theorem presetMemory_wf (addr v : Byte) (s t : State) (h : Memory.wf s.mem = true)
    (ht : presetMemory addr v s = some t) : Memory.wf t.mem = true := by
  unfold presetMemory at ht
  split at ht
  · next ha =>
    cases ht
    simp only [Bool.and_eq_true, decide_eq_true_eq] at ha
    exact memInsert_wf _ _ _ ha.2 h
  · cases ht

theorem reset_memory_wf : Memory.wf State.reset.mem = true := rfl

/-- A write through `memWrite`: everything it can do. -/
theorem memWrite_cases (addr v : Byte) (s : State) :
    (addr.toNat < Config.memSize ∧ memWrite addr v s = .ok { s with mem := memInsert s.mem addr.toNat v }) ∨
      (Config.memSize ≤ addr.toNat ∧ memWrite addr v s = .error { kind := .boundsError, detail := some addr }) := by
  by_cases h : addr.toNat < Config.memSize
  · exact .inl ⟨h, by simp [memWrite, effectiveAddress, h]⟩
  · exact .inr ⟨by omega, by simp [memWrite, effectiveAddress, h]⟩

/-- A read through `memRead`: everything it can do. -/
theorem memRead_cases (addr : Byte) (s : State) :
    (addr.toNat < Config.memSize ∧ memRead addr s = .ok (memLookup s.mem addr.toNat)) ∨
      (Config.memSize ≤ addr.toNat ∧ memRead addr s = .error { kind := .boundsError, detail := some addr }) := by
  by_cases h : addr.toNat < Config.memSize
  · exact .inl ⟨h, by simp [memRead, effectiveAddress, h]⟩
  · exact .inr ⟨by omega, by simp [memRead, effectiveAddress, h]⟩

end Sys2Proof.Machine
end

