-- ==== Sys2Proof/Laws/State.lean ====
section
/-! SUPPORT. One lemma per field per update of the state, each true by rfl. -/

namespace Sys2Proof.Machine

@[simp] theorem writeReg_regs (i : Reg) (v : Byte) (s : State) :
    (writeReg i v s).regs = setReg s.regs i v := rfl
@[simp] theorem writeReg_pc (i : Reg) (v : Byte) (s : State) :
    (writeReg i v s).pc = s.pc := rfl
@[simp] theorem writeReg_flags (i : Reg) (v : Byte) (s : State) :
    (writeReg i v s).flags = s.flags := rfl
@[simp] theorem writeReg_st (i : Reg) (v : Byte) (s : State) :
    (writeReg i v s).st = s.st := rfl
@[simp] theorem writeReg_err (i : Reg) (v : Byte) (s : State) :
    (writeReg i v s).err = s.err := rfl
@[simp] theorem writeReg_stk (i : Reg) (v : Byte) (s : State) :
    (writeReg i v s).stk = s.stk := rfl
@[simp] theorem writeReg_ir (i : Reg) (v : Byte) (s : State) :
    (writeReg i v s).ir = s.ir := rfl
@[simp] theorem writeReg_iaddr (i : Reg) (v : Byte) (s : State) :
    (writeReg i v s).iaddr = s.iaddr := rfl
@[simp] theorem writeReg_op1 (i : Reg) (v : Byte) (s : State) :
    (writeReg i v s).op1 = s.op1 := rfl
@[simp] theorem writeReg_op2 (i : Reg) (v : Byte) (s : State) :
    (writeReg i v s).op2 = s.op2 := rfl
@[simp] theorem writeReg_mem (i : Reg) (v : Byte) (s : State) :
    (writeReg i v s).mem = s.mem := rfl
@[simp] theorem writeReg_prog (i : Reg) (v : Byte) (s : State) :
    (writeReg i v s).prog = s.prog := rfl
@[simp] theorem writeReg_input (i : Reg) (v : Byte) (s : State) :
    (writeReg i v s).input = s.input := rfl
@[simp] theorem writeReg_inputPos (i : Reg) (v : Byte) (s : State) :
    (writeReg i v s).inputPos = s.inputPos := rfl
@[simp] theorem writeReg_events (i : Reg) (v : Byte) (s : State) :
    (writeReg i v s).events = s.events := rfl
@[simp] theorem writeReg_freeCtr (i : Reg) (v : Byte) (s : State) :
    (writeReg i v s).freeCtr = s.freeCtr := rfl

@[simp] theorem writeScratch_regs (v : Byte) (s : State) :
    (writeScratch v s).regs = s.regs := rfl
@[simp] theorem writeScratch_pc (v : Byte) (s : State) :
    (writeScratch v s).pc = s.pc := rfl
@[simp] theorem writeScratch_flags (v : Byte) (s : State) :
    (writeScratch v s).flags = s.flags := rfl
@[simp] theorem writeScratch_st (v : Byte) (s : State) :
    (writeScratch v s).st = s.st := rfl
@[simp] theorem writeScratch_err (v : Byte) (s : State) :
    (writeScratch v s).err = s.err := rfl
@[simp] theorem writeScratch_stk (v : Byte) (s : State) :
    (writeScratch v s).stk = s.stk := rfl
@[simp] theorem writeScratch_ir (v : Byte) (s : State) :
    (writeScratch v s).ir = s.ir := rfl
@[simp] theorem writeScratch_iaddr (v : Byte) (s : State) :
    (writeScratch v s).iaddr = s.iaddr := rfl
@[simp] theorem writeScratch_op1 (v : Byte) (s : State) :
    (writeScratch v s).op1 = s.op1 := rfl
@[simp] theorem writeScratch_op2 (v : Byte) (s : State) :
    (writeScratch v s).op2 = s.op2 := rfl
@[simp] theorem writeScratch_mem (v : Byte) (s : State) :
    (writeScratch v s).mem = memInsert s.mem (effectiveAddress Config.scratchAddr) v := rfl
@[simp] theorem writeScratch_prog (v : Byte) (s : State) :
    (writeScratch v s).prog = s.prog := rfl
@[simp] theorem writeScratch_input (v : Byte) (s : State) :
    (writeScratch v s).input = s.input := rfl
@[simp] theorem writeScratch_inputPos (v : Byte) (s : State) :
    (writeScratch v s).inputPos = s.inputPos := rfl
@[simp] theorem writeScratch_events (v : Byte) (s : State) :
    (writeScratch v s).events = s.events := rfl
@[simp] theorem writeScratch_freeCtr (v : Byte) (s : State) :
    (writeScratch v s).freeCtr = s.freeCtr := rfl

@[simp] theorem clobberRegs_regs (s : State) :
    (clobberRegs s).regs = freeRegs s.freeCtr := rfl
@[simp] theorem clobberRegs_pc (s : State) :
    (clobberRegs s).pc = s.pc := rfl
@[simp] theorem clobberRegs_flags (s : State) :
    (clobberRegs s).flags = s.flags := rfl
@[simp] theorem clobberRegs_st (s : State) :
    (clobberRegs s).st = s.st := rfl
@[simp] theorem clobberRegs_err (s : State) :
    (clobberRegs s).err = s.err := rfl
@[simp] theorem clobberRegs_stk (s : State) :
    (clobberRegs s).stk = s.stk := rfl
@[simp] theorem clobberRegs_ir (s : State) :
    (clobberRegs s).ir = s.ir := rfl
@[simp] theorem clobberRegs_iaddr (s : State) :
    (clobberRegs s).iaddr = s.iaddr := rfl
@[simp] theorem clobberRegs_op1 (s : State) :
    (clobberRegs s).op1 = s.op1 := rfl
@[simp] theorem clobberRegs_op2 (s : State) :
    (clobberRegs s).op2 = s.op2 := rfl
@[simp] theorem clobberRegs_mem (s : State) :
    (clobberRegs s).mem = s.mem := rfl
@[simp] theorem clobberRegs_prog (s : State) :
    (clobberRegs s).prog = s.prog := rfl
@[simp] theorem clobberRegs_input (s : State) :
    (clobberRegs s).input = s.input := rfl
@[simp] theorem clobberRegs_inputPos (s : State) :
    (clobberRegs s).inputPos = s.inputPos := rfl
@[simp] theorem clobberRegs_events (s : State) :
    (clobberRegs s).events = s.events := rfl
@[simp] theorem clobberRegs_freeCtr (s : State) :
    (clobberRegs s).freeCtr = s.freeCtr + 5 := rfl

@[simp] theorem forgetLatches_regs (s : State) :
    (forgetLatches s).regs = s.regs := rfl
@[simp] theorem forgetLatches_pc (s : State) :
    (forgetLatches s).pc = s.pc := rfl
@[simp] theorem forgetLatches_flags (s : State) :
    (forgetLatches s).flags = s.flags := rfl
@[simp] theorem forgetLatches_st (s : State) :
    (forgetLatches s).st = s.st := rfl
@[simp] theorem forgetLatches_err (s : State) :
    (forgetLatches s).err = s.err := rfl
@[simp] theorem forgetLatches_stk (s : State) :
    (forgetLatches s).stk = s.stk := rfl
@[simp] theorem forgetLatches_ir (s : State) :
    (forgetLatches s).ir = Config.freeByte s.freeCtr := rfl
@[simp] theorem forgetLatches_iaddr (s : State) :
    (forgetLatches s).iaddr = Config.freeByte (s.freeCtr + 1) := rfl
@[simp] theorem forgetLatches_op1 (s : State) :
    (forgetLatches s).op1 = Config.freeByte (s.freeCtr + 2) := rfl
@[simp] theorem forgetLatches_op2 (s : State) :
    (forgetLatches s).op2 = Config.freeByte (s.freeCtr + 3) := rfl
@[simp] theorem forgetLatches_mem (s : State) :
    (forgetLatches s).mem = s.mem := rfl
@[simp] theorem forgetLatches_prog (s : State) :
    (forgetLatches s).prog = s.prog := rfl
@[simp] theorem forgetLatches_input (s : State) :
    (forgetLatches s).input = s.input := rfl
@[simp] theorem forgetLatches_inputPos (s : State) :
    (forgetLatches s).inputPos = s.inputPos := rfl
@[simp] theorem forgetLatches_events (s : State) :
    (forgetLatches s).events = s.events := rfl
@[simp] theorem forgetLatches_freeCtr (s : State) :
    (forgetLatches s).freeCtr = s.freeCtr + 4 := rfl

@[simp] theorem finish_regs (i : Instr) (p : Phase) (s : State) :
    (finish i p s).regs = s.regs := rfl
@[simp] theorem finish_pc (i : Instr) (p : Phase) (s : State) :
    (finish i p s).pc = s.pc := rfl
@[simp] theorem finish_flags (i : Instr) (p : Phase) (s : State) :
    (finish i p s).flags = s.flags := rfl
@[simp] theorem finish_st (i : Instr) (p : Phase) (s : State) :
    (finish i p s).st = p := rfl
@[simp] theorem finish_err (i : Instr) (p : Phase) (s : State) :
    (finish i p s).err = s.err := rfl
@[simp] theorem finish_stk (i : Instr) (p : Phase) (s : State) :
    (finish i p s).stk = s.stk := rfl
@[simp] theorem finish_ir (i : Instr) (p : Phase) (s : State) :
    (finish i p s).ir = Config.freeByte s.freeCtr := rfl
@[simp] theorem finish_iaddr (i : Instr) (p : Phase) (s : State) :
    (finish i p s).iaddr = Config.freeByte (s.freeCtr + 1) := rfl
@[simp] theorem finish_op1 (i : Instr) (p : Phase) (s : State) :
    (finish i p s).op1 = Config.freeByte (s.freeCtr + 2) := rfl
@[simp] theorem finish_op2 (i : Instr) (p : Phase) (s : State) :
    (finish i p s).op2 = Config.freeByte (s.freeCtr + 3) := rfl
@[simp] theorem finish_mem (i : Instr) (p : Phase) (s : State) :
    (finish i p s).mem = s.mem := rfl
@[simp] theorem finish_prog (i : Instr) (p : Phase) (s : State) :
    (finish i p s).prog = s.prog := rfl
@[simp] theorem finish_input (i : Instr) (p : Phase) (s : State) :
    (finish i p s).input = s.input := rfl
@[simp] theorem finish_inputPos (i : Instr) (p : Phase) (s : State) :
    (finish i p s).inputPos = s.inputPos := rfl
@[simp] theorem finish_events (i : Instr) (p : Phase) (s : State) :
    (finish i p s).events = s.events ++ [eventOf i s] := rfl
@[simp] theorem finish_freeCtr (i : Instr) (p : Phase) (s : State) :
    (finish i p s).freeCtr = s.freeCtr + 4 := rfl

@[simp] theorem enterFaulted_regs (op : Option Byte) (t : Trap) (s : State) :
    (enterFaulted op t s).regs = s.regs := rfl
@[simp] theorem enterFaulted_pc (op : Option Byte) (t : Trap) (s : State) :
    (enterFaulted op t s).pc = s.pc := rfl
@[simp] theorem enterFaulted_flags (op : Option Byte) (t : Trap) (s : State) :
    (enterFaulted op t s).flags = s.flags := rfl
@[simp] theorem enterFaulted_st (op : Option Byte) (t : Trap) (s : State) :
    (enterFaulted op t s).st = .faulted := rfl
@[simp] theorem enterFaulted_err (op : Option Byte) (t : Trap) (s : State) :
    (enterFaulted op t s).err = { kind := t.kind, pc := s.iaddr, opcode := op, detail := trapDetail t s } := rfl
@[simp] theorem enterFaulted_stk (op : Option Byte) (t : Trap) (s : State) :
    (enterFaulted op t s).stk = s.stk := rfl
@[simp] theorem enterFaulted_ir (op : Option Byte) (t : Trap) (s : State) :
    (enterFaulted op t s).ir = s.ir := rfl
@[simp] theorem enterFaulted_iaddr (op : Option Byte) (t : Trap) (s : State) :
    (enterFaulted op t s).iaddr = s.iaddr := rfl
@[simp] theorem enterFaulted_op1 (op : Option Byte) (t : Trap) (s : State) :
    (enterFaulted op t s).op1 = s.op1 := rfl
@[simp] theorem enterFaulted_op2 (op : Option Byte) (t : Trap) (s : State) :
    (enterFaulted op t s).op2 = s.op2 := rfl
@[simp] theorem enterFaulted_mem (op : Option Byte) (t : Trap) (s : State) :
    (enterFaulted op t s).mem = s.mem := rfl
@[simp] theorem enterFaulted_prog (op : Option Byte) (t : Trap) (s : State) :
    (enterFaulted op t s).prog = s.prog := rfl
@[simp] theorem enterFaulted_input (op : Option Byte) (t : Trap) (s : State) :
    (enterFaulted op t s).input = s.input := rfl
@[simp] theorem enterFaulted_inputPos (op : Option Byte) (t : Trap) (s : State) :
    (enterFaulted op t s).inputPos = s.inputPos := rfl
@[simp] theorem enterFaulted_events (op : Option Byte) (t : Trap) (s : State) :
    (enterFaulted op t s).events = s.events := rfl
@[simp] theorem enterFaulted_freeCtr (op : Option Byte) (t : Trap) (s : State) :
    (enterFaulted op t s).freeCtr = trapCounter t s := rfl

@[simp] theorem applyReset_regs (s : State) :
    (applyReset s).regs = State.reset.regs := rfl
@[simp] theorem applyReset_pc (s : State) :
    (applyReset s).pc = State.reset.pc := rfl
@[simp] theorem applyReset_flags (s : State) :
    (applyReset s).flags = State.reset.flags := rfl
@[simp] theorem applyReset_st (s : State) :
    (applyReset s).st = State.reset.st := rfl
@[simp] theorem applyReset_err (s : State) :
    (applyReset s).err = State.reset.err := rfl
@[simp] theorem applyReset_stk (s : State) :
    (applyReset s).stk = State.reset.stk := rfl
@[simp] theorem applyReset_ir (s : State) :
    (applyReset s).ir = State.reset.ir := rfl
@[simp] theorem applyReset_iaddr (s : State) :
    (applyReset s).iaddr = State.reset.iaddr := rfl
@[simp] theorem applyReset_op1 (s : State) :
    (applyReset s).op1 = State.reset.op1 := rfl
@[simp] theorem applyReset_op2 (s : State) :
    (applyReset s).op2 = State.reset.op2 := rfl
@[simp] theorem applyReset_mem (s : State) :
    (applyReset s).mem = State.reset.mem := rfl
@[simp] theorem applyReset_prog (s : State) :
    (applyReset s).prog = s.prog := rfl
@[simp] theorem applyReset_input (s : State) :
    (applyReset s).input = s.input := rfl
@[simp] theorem applyReset_inputPos (s : State) :
    (applyReset s).inputPos = s.inputPos := rfl
@[simp] theorem applyReset_events (s : State) :
    (applyReset s).events = State.reset.events := rfl
@[simp] theorem applyReset_freeCtr (s : State) :
    (applyReset s).freeCtr = s.freeCtr := rfl

/-! ### The register file -/

@[simp] theorem getReg_setReg_same (regs : RegFile) (i : Reg) (v : Byte) : getReg (setReg regs i v) i = v := by
  cases i <;> rfl

@[simp] theorem getReg_setReg_other (regs : RegFile) (i j : Reg) (v : Byte) (h : j ≠ i) :
    getReg (setReg regs i v) j = getReg regs j := by
  cases i <;> cases j <;> first | rfl | exact absurd rfl h

end Sys2Proof.Machine
end

