-- ==== Sys2Proof/Laws/Stack.lean ====
section
/-! SUPPORT. The temporary stack and the Arithmetic Unit's bracketed calls: what each operation does, once. -/

namespace Sys2Proof.Machine

theorem push_fits (v : Byte) (s : State) (h : s.stk.length < Config.stackDepth) :
    push v s = .ok { s with stk := s.stk ++ [v] } := by simp [push, h]

theorem push_overflows (v : Byte) (s : State) (h : Config.stackDepth ≤ s.stk.length) :
    push v s = .error { kind := .stackOverflow, detail := none } := by simp [push, Nat.not_lt.2 h]

theorem pop_concat (s : State) (stk : List Byte) (v : Byte) (h : s.stk = stk ++ [v]) :
    pop s = .ok (v, { s with stk := stk }) := by simp [pop, h]

theorem pop_underflows (s : State) (h : s.stk = []) :
    pop s = .error { kind := .stackUnderflow, detail := none } := by simp [pop, h]

theorem pushAll_fits (vs : List Byte) (s : State) (h : s.stk.length + vs.length ≤ Config.stackDepth) :
    pushAll vs s = .ok { s with stk := s.stk ++ vs } := by
  induction vs generalizing s with
  | nil => simp [pushAll]
  | cons v rest ih =>
    simp only [List.length_cons] at h
    rw [pushAll, push_fits v s (by omega)]
    simp only
    rw [ih _ (by simp; omega)]
    simp

theorem pushAll_overflows (vs : List Byte) (s : State) (h0 : s.stk.length ≤ Config.stackDepth)
    (h : Config.stackDepth < s.stk.length + vs.length) :
    pushAll vs s = .error { kind := .stackOverflow, detail := none } := by
  induction vs generalizing s with
  | nil => simp at h; omega
  | cons v rest ih =>
    simp only [List.length_cons] at h
    rw [pushAll]
    by_cases hfit : s.stk.length < Config.stackDepth
    · rw [push_fits v s hfit]
      exact ih _ (by simp; omega) (by simp; omega)
    · rw [push_overflows v s (by omega)]

theorem saveRegs_fits (s : State) (h : s.stk.length + 5 ≤ Config.stackDepth) :
    saveRegs s = .ok { s with stk := s.stk ++ savedRegs s.regs } :=
  pushAll_fits _ s h

theorem saveRegs_overflows (s : State) (h : Config.stackDepth < s.stk.length + 5) :
    saveRegs s = .error { kind := .stackOverflow, detail := none } := by
  by_cases h0 : s.stk.length ≤ Config.stackDepth
  · exact pushAll_overflows _ s h0 h
  · rw [saveRegs, savedRegs, pushAll, push_overflows _ s (by omega)]

/-- Five pops take back what five pushes left. -/
theorem restoreRegs_saved (s : State) (stk : List Byte) (regs : RegFile) (h : s.stk = stk ++ savedRegs regs) :
    restoreRegs s = .ok { s with stk := stk, regs := regs } := by
  have e : s.stk = stk ++ [regs.a] ++ [regs.b] ++ [regs.c] ++ [regs.d] ++ [regs.e] := by simp [h, savedRegs]
  simp only [restoreRegs, bind, Except.bind]
  rw [pop_concat s _ _ e]
  simp only
  rw [pop_concat _ _ _ rfl]
  simp only
  rw [pop_concat _ _ _ rfl]
  simp only
  rw [pop_concat _ _ _ rfl]
  simp only
  rw [pop_concat _ _ _ rfl]

/-- A bracketed call that fits and whose body leaves the stack as it found it: the registers and the stack are
those before the call, everything else is the body's. -/
theorem bracket_fits (body : State → Except Trap (AddResult × State)) (s inside : State) (res : AddResult)
    (h : s.stk.length + 5 ≤ Config.stackDepth)
    (hb : body (clobberRegs { s with stk := s.stk ++ savedRegs s.regs }) = .ok (res, inside))
    (hs : inside.stk = s.stk ++ savedRegs s.regs) :
    bracket body s = .ok (res, { inside with stk := s.stk, regs := s.regs }) := by
  simp only [bracket, bind, Except.bind, saveRegs_fits s h, hb, restoreRegs_saved inside _ _ hs]

theorem bracket_overflows (body : State → Except Trap (AddResult × State)) (s : State)
    (h : Config.stackDepth < s.stk.length + 5) :
    bracket body s = .error { kind := .stackOverflow, detail := none } := by
  simp only [bracket, bind, Except.bind, saveRegs_overflows s h]

theorem bracket_body_error (body : State → Except Trap (AddResult × State)) (s : State) (t : Trap)
    (h : s.stk.length + 5 ≤ Config.stackDepth)
    (hb : body (clobberRegs { s with stk := s.stk ++ savedRegs s.regs }) = .error t) :
    bracket body s = .error t := by
  simp only [bracket, bind, Except.bind, saveRegs_fits s h, hb]

/-- What an Arithmetic Unit call leaves: the scratch cell written, `n` free values used, all else as it was. -/
def afterAdder (r : Byte) (n : Nat) (s : State) : State :=
  { writeScratch r s with freeCtr := s.freeCtr + n }

@[simp] theorem afterAdder_regs (r : Byte) (n : Nat) (s : State) :
    (afterAdder r n s).regs = s.regs := rfl
@[simp] theorem afterAdder_pc (r : Byte) (n : Nat) (s : State) :
    (afterAdder r n s).pc = s.pc := rfl
@[simp] theorem afterAdder_flags (r : Byte) (n : Nat) (s : State) :
    (afterAdder r n s).flags = s.flags := rfl
@[simp] theorem afterAdder_st (r : Byte) (n : Nat) (s : State) :
    (afterAdder r n s).st = s.st := rfl
@[simp] theorem afterAdder_err (r : Byte) (n : Nat) (s : State) :
    (afterAdder r n s).err = s.err := rfl
@[simp] theorem afterAdder_stk (r : Byte) (n : Nat) (s : State) :
    (afterAdder r n s).stk = s.stk := rfl
@[simp] theorem afterAdder_ir (r : Byte) (n : Nat) (s : State) :
    (afterAdder r n s).ir = s.ir := rfl
@[simp] theorem afterAdder_iaddr (r : Byte) (n : Nat) (s : State) :
    (afterAdder r n s).iaddr = s.iaddr := rfl
@[simp] theorem afterAdder_op1 (r : Byte) (n : Nat) (s : State) :
    (afterAdder r n s).op1 = s.op1 := rfl
@[simp] theorem afterAdder_op2 (r : Byte) (n : Nat) (s : State) :
    (afterAdder r n s).op2 = s.op2 := rfl
@[simp] theorem afterAdder_mem (r : Byte) (n : Nat) (s : State) :
    (afterAdder r n s).mem = memInsert s.mem (effectiveAddress Config.scratchAddr) r := rfl
@[simp] theorem afterAdder_prog (r : Byte) (n : Nat) (s : State) :
    (afterAdder r n s).prog = s.prog := rfl
@[simp] theorem afterAdder_input (r : Byte) (n : Nat) (s : State) :
    (afterAdder r n s).input = s.input := rfl
@[simp] theorem afterAdder_inputPos (r : Byte) (n : Nat) (s : State) :
    (afterAdder r n s).inputPos = s.inputPos := rfl
@[simp] theorem afterAdder_events (r : Byte) (n : Nat) (s : State) :
    (afterAdder r n s).events = s.events := rfl
@[simp] theorem afterAdder_freeCtr (r : Byte) (n : Nat) (s : State) :
    (afterAdder r n s).freeCtr = s.freeCtr + n := rfl

theorem aluAdd_fits (a b : Byte) (s : State) (h : s.stk.length + 5 ≤ Config.stackDepth) :
    aluAdd a b s = .ok (add8 a b, afterAdder (add8 a b).r 5 s) := by
  unfold aluAdd
  rw [bracket_fits _ s _ _ h rfl rfl]
  rfl

theorem aluAdd_overflows (a b : Byte) (s : State) (h : Config.stackDepth < s.stk.length + 5) :
    aluAdd a b s = .error { kind := .stackOverflow, detail := none } :=
  bracket_overflows _ s h

theorem aluSub_fits (a b : Byte) (s : State) (h : s.stk.length + 10 ≤ Config.stackDepth) :
    aluSub a b s = .ok (sub8 a b, afterAdder (sub8 a b).r 10 s) := by
  unfold aluSub
  rw [bracket_fits _ s _ _ (by omega) (aluAdd_fits _ _ _ (by simp [savedRegs]; omega)) rfl]
  rfl

theorem aluSub_overflows (a b : Byte) (s : State) (h : Config.stackDepth < s.stk.length + 10) :
    aluSub a b s = .error { kind := .stackOverflow, detail := none } := by
  by_cases h5 : s.stk.length + 5 ≤ Config.stackDepth
  · exact bracket_body_error _ s _ h5 (aluAdd_overflows _ _ _ (by simp [savedRegs]; omega))
  · exact bracket_overflows _ s (by omega)

theorem aluAddc_fits (a b : Byte) (cin : Bool) (s : State) (h : s.stk.length + 10 ≤ Config.stackDepth) :
    aluAddc a b cin s = .ok (addc8 a b cin, afterAdder (add8 a b).r 10 s) := by
  have inner := aluAdd_fits a b (clobberRegs { s with stk := s.stk ++ savedRegs s.regs })
    (by simp [savedRegs]; omega)
  unfold aluAddc
  rw [bracket_fits _ s (afterAdder (add8 a b).r 5 (clobberRegs { s with stk := s.stk ++ savedRegs s.regs }))
    (addc8 a b cin) (by omega) (by simp only [inner, bind, Except.bind]; rfl) rfl]
  rfl

theorem aluAddc_overflows (a b : Byte) (cin : Bool) (s : State) (h : Config.stackDepth < s.stk.length + 10) :
    aluAddc a b cin s = .error { kind := .stackOverflow, detail := none } := by
  by_cases h5 : s.stk.length + 5 ≤ Config.stackDepth
  · refine bracket_body_error _ s _ h5 ?_
    simp only [aluAdd_overflows a b (clobberRegs { s with stk := s.stk ++ savedRegs s.regs })
      (by simp [savedRegs]; omega), bind, Except.bind]
  · exact bracket_overflows _ s (by omega)

end Sys2Proof.Machine
end

