-- ==== Sys2Proof/Laws/Exec.lean ====
section
/-! SUPPORT. What an instruction can do, said once: `exec_cases` lists every outcome of every meaning, and the lemmas
after it say what FETCH, DECODE and a step can do. -/

namespace Sys2Proof.Machine

/-- The state an ADD, SUB or ADDC completes from: destination, flags and scratch cell written. -/
def adderDone (rd : Reg) (res : AddResult) (scratch : Byte) (n : Nat) (s : State) : State :=
  { writeReg rd res.r (afterAdder scratch n s) with flags := res.flags }

@[simp] theorem adderDone_regs (rd : Reg) (res : AddResult) (r : Byte) (n : Nat) (s : State) :
    (adderDone rd res r n s).regs = setReg s.regs rd res.r := rfl
@[simp] theorem adderDone_pc (rd : Reg) (res : AddResult) (r : Byte) (n : Nat) (s : State) :
    (adderDone rd res r n s).pc = s.pc := rfl
@[simp] theorem adderDone_flags (rd : Reg) (res : AddResult) (r : Byte) (n : Nat) (s : State) :
    (adderDone rd res r n s).flags = res.flags := rfl
@[simp] theorem adderDone_st (rd : Reg) (res : AddResult) (r : Byte) (n : Nat) (s : State) :
    (adderDone rd res r n s).st = s.st := rfl
@[simp] theorem adderDone_err (rd : Reg) (res : AddResult) (r : Byte) (n : Nat) (s : State) :
    (adderDone rd res r n s).err = s.err := rfl
@[simp] theorem adderDone_stk (rd : Reg) (res : AddResult) (r : Byte) (n : Nat) (s : State) :
    (adderDone rd res r n s).stk = s.stk := rfl
@[simp] theorem adderDone_ir (rd : Reg) (res : AddResult) (r : Byte) (n : Nat) (s : State) :
    (adderDone rd res r n s).ir = s.ir := rfl
@[simp] theorem adderDone_iaddr (rd : Reg) (res : AddResult) (r : Byte) (n : Nat) (s : State) :
    (adderDone rd res r n s).iaddr = s.iaddr := rfl
@[simp] theorem adderDone_op1 (rd : Reg) (res : AddResult) (r : Byte) (n : Nat) (s : State) :
    (adderDone rd res r n s).op1 = s.op1 := rfl
@[simp] theorem adderDone_op2 (rd : Reg) (res : AddResult) (r : Byte) (n : Nat) (s : State) :
    (adderDone rd res r n s).op2 = s.op2 := rfl
@[simp] theorem adderDone_mem (rd : Reg) (res : AddResult) (r : Byte) (n : Nat) (s : State) :
    (adderDone rd res r n s).mem = memInsert s.mem (effectiveAddress Config.scratchAddr) r := rfl
@[simp] theorem adderDone_prog (rd : Reg) (res : AddResult) (r : Byte) (n : Nat) (s : State) :
    (adderDone rd res r n s).prog = s.prog := rfl
@[simp] theorem adderDone_input (rd : Reg) (res : AddResult) (r : Byte) (n : Nat) (s : State) :
    (adderDone rd res r n s).input = s.input := rfl
@[simp] theorem adderDone_inputPos (rd : Reg) (res : AddResult) (r : Byte) (n : Nat) (s : State) :
    (adderDone rd res r n s).inputPos = s.inputPos := rfl
@[simp] theorem adderDone_events (rd : Reg) (res : AddResult) (r : Byte) (n : Nat) (s : State) :
    (adderDone rd res r n s).events = s.events := rfl
@[simp] theorem adderDone_freeCtr (rd : Reg) (res : AddResult) (r : Byte) (n : Nat) (s : State) :
    (adderDone rd res r n s).freeCtr = s.freeCtr + n := rfl

theorem execAdd_fits (rd rs : Reg) (s : State) (h : s.stk.length + 5 ≤ Config.stackDepth) :
    execAdd rd rs s = complete (.add rd rs)
      (adderDone rd (add8 (readReg rd s) (readReg rs s)) (add8 (readReg rd s) (readReg rs s)).r 5 s) := by
  simp only [execAdd, completeAdder, aluAdd_fits _ _ s h, adderDone]

theorem execAdd_overflows (rd rs : Reg) (s : State) (h : Config.stackDepth < s.stk.length + 5) :
    execAdd rd rs s = raiseInInstr { kind := .stackOverflow, detail := none } s := by
  simp only [execAdd, completeAdder, aluAdd_overflows _ _ s h]

theorem execSub_fits (rd rs : Reg) (s : State) (h : s.stk.length + 10 ≤ Config.stackDepth) :
    execSub rd rs s = complete (.sub rd rs)
      (adderDone rd (sub8 (readReg rd s) (readReg rs s)) (sub8 (readReg rd s) (readReg rs s)).r 10 s) := by
  simp only [execSub, completeAdder, aluSub_fits _ _ s h, adderDone]

theorem execSub_overflows (rd rs : Reg) (s : State) (h : Config.stackDepth < s.stk.length + 10) :
    execSub rd rs s = raiseInInstr { kind := .stackOverflow, detail := none } s := by
  simp only [execSub, completeAdder, aluSub_overflows _ _ s h]

theorem execAddc_fits (rd rs : Reg) (s : State) (h : s.stk.length + 10 ≤ Config.stackDepth) :
    execAddc rd rs s = complete (.addc rd rs)
      (adderDone rd (addc8 (readReg rd s) (readReg rs s) s.flags.c) (add8 (readReg rd s) (readReg rs s)).r 10 s) := by
  simp only [execAddc, completeAdder, aluAddc_fits _ _ _ s h, adderDone]

theorem execAddc_overflows (rd rs : Reg) (s : State) (h : Config.stackDepth < s.stk.length + 10) :
    execAddc rd rs s = raiseInInstr { kind := .stackOverflow, detail := none } s := by
  simp only [execAddc, completeAdder, aluAddc_overflows _ _ _ s h]

theorem execLoadDirect_reads (r : Reg) (addr : Byte) (s : State) (h : addr.toNat < Config.memSize) :
    execLoadDirect r addr s = complete (.loadDirect r addr) (writeReg r (memLookup s.mem addr.toNat) s) := by
  simp [execLoadDirect, memRead, effectiveAddress, h]

theorem execLoadDirect_outside (r : Reg) (addr : Byte) (s : State) (h : Config.memSize ≤ addr.toNat) :
    execLoadDirect r addr s = raiseInInstr { kind := .boundsError, detail := some addr } s := by
  simp [execLoadDirect, memRead, effectiveAddress, Nat.not_lt.2 h]

theorem execStore_writes (r : Reg) (addr : Byte) (s : State) (h : addr.toNat < Config.memSize) :
    execStore r addr s =
      complete (.store r addr) { s with mem := memInsert s.mem addr.toNat (readReg r s) } := by
  simp [execStore, memWrite, effectiveAddress, h]

theorem execStore_outside (r : Reg) (addr : Byte) (s : State) (h : Config.memSize ≤ addr.toNat) :
    execStore r addr s = raiseInInstr { kind := .boundsError, detail := some addr } s := by
  simp [execStore, memWrite, effectiveAddress, Nat.not_lt.2 h]

theorem execReadIo_value (rd : Reg) (v : Byte) (s : State) (h : inputAnswer s.input s.inputPos = some (.value v)) :
    execReadIo rd s = complete (.readIo rd) (writeReg rd v { s with inputPos := s.inputPos + 1 }) := by
  simp [execReadIo, inRead, h]

theorem execReadIo_notYet (rd : Reg) (s : State) (h : inputAnswer s.input s.inputPos = some .notYet) :
    execReadIo rd s = .next { s with inputPos := s.inputPos + 1, st := .execute } := by
  simp [execReadIo, inRead, h]

theorem execReadIo_exhausted (rd : Reg) (s : State) (h : inputAnswer s.input s.inputPos = none) :
    execReadIo rd s = raiseInInstr { kind := .inputUnavailable, detail := none } s := by
  simp only [execReadIo, inRead, h]

theorem branchIf_taken (i : Instr) (target : Byte) (s : State) :
    branchIf i true target s = completeAt i target s := rfl

theorem branchIf_notTaken (i : Instr) (target : Byte) (s : State) :
    branchIf i false target s = complete i s := rfl

/-- The outcomes an instruction can have, as a relation on the states before and after. -/
inductive ExecOutcome (i : Instr) (s : State) : State → Prop where
  /-- ADD, SUB, ADDC with room on the stack -/
  | adder (rd rs : Reg) (res : AddResult) (scratch : Byte) (n : Nat)
      (hi : i = .add rd rs ∨ i = .sub rd rs ∨ i = .addc rd rs) (hs : s.stk.length + 5 ≤ Config.stackDepth) :
      ExecOutcome i s
        (finish i .fetch { adderDone rd res scratch n s with pc := s.iaddr + BitVec.ofNat 8 (lengthOf (mnemonicOfInstr i)) })
  /-- an instruction that writes its destination register, and the input cursor if it is READ_IO -/
  | register (rd : Reg) (v : Byte) (pos : Nat)
      (hi : (∃ rs, i = .and rd rs ∨ i = .or rd rs ∨ i = .xor rd rs) ∨ i = .inc rd ∨ i = .shl rd ∨ i = .shr rd ∨
        i = .complement rd ∨ i = .readIo rd ∨ ∃ addr, i = .loadDirect rd addr)
      (hp : pos = s.inputPos ∧ i ≠ .readIo rd ∨
        i = .readIo rd ∧ pos = s.inputPos + 1 ∧ inputAnswer s.input s.inputPos = some (.value v)) :
      ExecOutcome i s
        (finish i .fetch { writeReg rd v { s with inputPos := pos } with
          pc := s.iaddr + BitVec.ofNat 8 (lengthOf (mnemonicOfInstr i)) })
  | store (r : Reg) (addr : Byte) (hi : i = .store r addr) (ha : addr.toNat < Config.memSize) :
      ExecOutcome i s
        (finish i .fetch { s with mem := memInsert s.mem addr.toNat (readReg r s), pc := s.iaddr + 3#8 })
  | taken (target : Byte)
      (hi : i = .branchIfZero target ∧ s.flags.z = true ∨ i = .branchIfCarry target ∧ s.flags.c = true) :
      ExecOutcome i s (finish i .fetch { s with pc := target })
  | notTaken (target : Byte)
      (hi : i = .branchIfZero target ∧ s.flags.z = false ∨ i = .branchIfCarry target ∧ s.flags.c = false) :
      ExecOutcome i s (finish i .fetch { s with pc := s.iaddr + 2#8 })
  | halt (hi : i = .halt) : ExecOutcome i s (finish i .halted s)
  /-- READ_IO with no answer yet -/
  | waiting (rd : Reg) (hi : i = .readIo rd) (ha : inputAnswer s.input s.inputPos = some .notYet) :
      ExecOutcome i s { s with inputPos := s.inputPos + 1, st := .execute }
  /-- a precise error of LOAD_DIRECT, STORE or READ_IO -/
  | error (t : Trap)
      (hi : (∃ r addr, (i = .loadDirect r addr ∨ i = .store r addr) ∧ t = { kind := .boundsError, detail := some addr } ∧
          Config.memSize ≤ addr.toNat) ∨
        (∃ rd, i = .readIo rd ∧ t = { kind := .inputUnavailable, detail := none } ∧
          s.input.tail = .ends ∧ s.input.answers.length ≤ s.inputPos)) :
      ExecOutcome i s (enterFaulted (some s.ir) t s)
  /-- a stack fault of ADD, SUB or ADDC on a stack that is too full -/
  | stackFault (hs : Config.stackDepth < s.stk.length + 10)
      (hi : ∃ rd rs, i = .add rd rs ∨ i = .sub rd rs ∨ i = .addc rd rs) :
      ExecOutcome i s (unspecifyAll (enterFaulted (some s.ir) { kind := .stackOverflow, detail := none } s))

/-- Every meaning answers a next state, by one of the outcomes above. -/
theorem exec_cases (i : Instr) (s : State) : ∃ t, exec i s = .next t ∧ ExecOutcome i s t := by
  cases i with
  | add rd rs =>
    by_cases h : s.stk.length + 5 ≤ Config.stackDepth
    · exact ⟨_, execAdd_fits rd rs s h, .adder rd rs _ _ _ (.inl rfl) h⟩
    · exact ⟨_, execAdd_overflows rd rs s (by omega), .stackFault (by omega) ⟨rd, rs, .inl rfl⟩⟩
  | sub rd rs =>
    by_cases h : s.stk.length + 10 ≤ Config.stackDepth
    · exact ⟨_, execSub_fits rd rs s h, .adder rd rs _ _ _ (.inr (.inl rfl)) (by omega)⟩
    · exact ⟨_, execSub_overflows rd rs s (by omega), .stackFault (by omega) ⟨rd, rs, .inr (.inl rfl)⟩⟩
  | addc rd rs =>
    by_cases h : s.stk.length + 10 ≤ Config.stackDepth
    · exact ⟨_, execAddc_fits rd rs s h, .adder rd rs _ _ _ (.inr (.inr rfl)) (by omega)⟩
    · exact ⟨_, execAddc_overflows rd rs s (by omega), .stackFault (by omega) ⟨rd, rs, .inr (.inr rfl)⟩⟩
  | inc rd => exact ⟨_, rfl, .register rd _ s.inputPos (by simp) (.inl ⟨rfl, by simp⟩)⟩
  | loadDirect r addr =>
    by_cases h : addr.toNat < Config.memSize
    · exact ⟨_, execLoadDirect_reads r addr s h, .register r _ s.inputPos (by simp) (.inl ⟨rfl, by simp⟩)⟩
    · exact ⟨_, execLoadDirect_outside r addr s (by omega), .error _ (.inl ⟨r, addr, .inl rfl, rfl, by omega⟩)⟩
  | readIo rd =>
    cases h : inputAnswer s.input s.inputPos with
    | none =>
      exact ⟨_, execReadIo_exhausted rd s h, .error _ (.inr ⟨rd, rfl, rfl, (inputAnswer_eq_none _ _).1 h⟩)⟩
    | some answer =>
      cases answer with
      | value v => exact ⟨_, execReadIo_value rd v s h, .register rd v (s.inputPos + 1) (by simp) (.inr ⟨rfl, rfl, h⟩)⟩
      | notYet => exact ⟨_, execReadIo_notYet rd s h, .waiting rd rfl h⟩
  | store r addr =>
    by_cases h : addr.toNat < Config.memSize
    · exact ⟨_, execStore_writes r addr s h, .store r addr rfl h⟩
    · exact ⟨_, execStore_outside r addr s (by omega), .error _ (.inl ⟨r, addr, .inr rfl, rfl, by omega⟩)⟩
  | shl rd => exact ⟨_, rfl, .register rd _ s.inputPos (by simp) (.inl ⟨rfl, by simp⟩)⟩
  | shr rd => exact ⟨_, rfl, .register rd _ s.inputPos (by simp) (.inl ⟨rfl, by simp⟩)⟩
  | and rd rs => exact ⟨_, rfl, .register rd _ s.inputPos (.inl ⟨rs, .inl rfl⟩) (.inl ⟨rfl, by simp⟩)⟩
  | or rd rs => exact ⟨_, rfl, .register rd _ s.inputPos (.inl ⟨rs, .inr (.inl rfl)⟩) (.inl ⟨rfl, by simp⟩)⟩
  | xor rd rs => exact ⟨_, rfl, .register rd _ s.inputPos (.inl ⟨rs, .inr (.inr rfl)⟩) (.inl ⟨rfl, by simp⟩)⟩
  | complement rd => exact ⟨_, rfl, .register rd _ s.inputPos (by simp) (.inl ⟨rfl, by simp⟩)⟩
  | branchIfZero target =>
    cases h : s.flags.z with
    | true => exact ⟨_, by rw [exec, execBranchIfZero, h]; exact branchIf_taken .., .taken target (.inl ⟨rfl, h⟩)⟩
    | false => exact ⟨_, by rw [exec, execBranchIfZero, h]; exact branchIf_notTaken .., .notTaken target (.inl ⟨rfl, h⟩)⟩
  | branchIfCarry target =>
    cases h : s.flags.c with
    | true => exact ⟨_, by rw [exec, execBranchIfCarry, h]; exact branchIf_taken .., .taken target (.inr ⟨rfl, h⟩)⟩
    | false => exact ⟨_, by rw [exec, execBranchIfCarry, h]; exact branchIf_notTaken .., .notTaken target (.inr ⟨rfl, h⟩)⟩
  | halt => exact ⟨_, rfl, .halt rfl⟩

/-- The inversion of `exec_cases`: an answer of `exec` is one of the outcomes. -/
theorem exec_next (i : Instr) (s t : State) (h : exec i s = .next t) : ExecOutcome i s t := by
  obtain ⟨u, hu, ho⟩ := exec_cases i s
  rw [h] at hu
  cases hu
  exact ho

theorem progRead_some (i : Nat) (s : State) (v : Byte) (h : s.prog[i]? = some v) : progRead i s = .ok v := by
  simp [progRead, h]

theorem progRead_none (i : Nat) (s : State) (h : s.prog.length ≤ i) :
    progRead i s = .error { kind := .boundsError, detail := some (BitVec.ofNat 8 i) } := by
  simp [progRead, List.getElem?_eq_none h]

/-- What DECODE can come to from latched `ir` and `iaddr`: a precise error, or an instruction with its operand bytes
latched; the two answers leave everything but `st`, `err`, the operand latches and `freeCtr` alone. -/
inductive DecodeOutcome (s : State) : DecodeResult → Prop where
  | error (t : Trap) (u : State) (hk : t.kind = .decodeError ∨ t.kind = .boundsError)
      (hu : ∃ op1 op2, u = { s with op1 := op1, op2 := op2 }) :
      DecodeOutcome s (.raised (enterFaulted (some s.ir) t u))
  | halt (hi : mnemonicOf s.ir = some .halt) : DecodeOutcome s (.ready .halt s)
  | ready (i : Instr) (op1 op2 : Byte) (hm : mnemonicOf s.ir = some (mnemonicOfInstr i)) (hh : i ≠ .halt)
      (hr : resolve (mnemonicOfInstr i) op1 op2 = .ok i) :
      DecodeOutcome s (.ready i { s with op1 := op1, op2 := op2, st := .execute })

theorem resolve_mnemonic (m : Mnemonic) (op1 op2 : Byte) (i : Instr) (h : resolve m op1 op2 = .ok i) :
    mnemonicOfInstr i = m := by
  have hR (make : Reg → Instr) (hm : ∀ r, mnemonicOfInstr (make r) = m) (h : resolveR make op1 = .ok i) :
      mnemonicOfInstr i = m := by
    rcases resolveR_cases make op1 with ⟨rd, -, e⟩ | ⟨-, e⟩
    · rw [e] at h; cases h; exact hm rd
    · rw [e] at h; cases h
  have hRR (make : Reg → Reg → Instr) (hm : ∀ r q, mnemonicOfInstr (make r q) = m)
      (h : resolveRR make op1 op2 = .ok i) : mnemonicOfInstr i = m := by
    rcases resolveRR_cases make op1 op2 with ⟨rd, rs, -, -, e⟩ | ⟨-, e⟩ | ⟨-, -, e⟩
    · rw [e] at h; cases h; exact hm rd rs
    · rw [e] at h; cases h
    · rw [e] at h; cases h
  cases m <;> first
    | exact hR _ (fun _ => rfl) h
    | exact hRR _ (fun _ _ => rfl) h
    | (cases h; rfl)

theorem resolvePhase_cases (m : Mnemonic) (s : State) (hm : mnemonicOf s.ir = some m) (hh : m ≠ .halt) :
    DecodeOutcome s (resolvePhase m s) := by
  unfold resolvePhase
  split
  · next sel h => exact .error { kind := .decodeError, detail := some sel } s (.inl rfl) ⟨s.op1, s.op2, rfl⟩
  · next i h =>
    have hi := resolve_mnemonic m _ _ i h
    exact .ready i s.op1 s.op2 (by rw [hm, hi]) (by rintro rfl; exact hh (hi ▸ rfl)) (hi ▸ h)

theorem fetchOperands_cases (len : Nat) (s : State) :
    (∃ op1 op2, fetchOperands len s = .ok { s with op1 := op1, op2 := op2 }) ∨
      ∃ k, fetchOperands len s = .error { kind := .boundsError, detail := some (BitVec.ofNat 8 (s.iaddr.toNat + k)) } := by
  unfold fetchOperands progRead
  split
  · exact .inl ⟨s.op1, s.op2, rfl⟩
  · cases s.prog[s.iaddr.toNat + 1]? with
    | none => exact .inr ⟨1, rfl⟩
    | some op1 =>
      simp only
      split
      · exact .inl ⟨op1, s.op2, rfl⟩
      · cases s.prog[s.iaddr.toNat + 2]? with
        | none => exact .inr ⟨2, rfl⟩
        | some op2 => exact .inl ⟨op1, op2, rfl⟩

theorem decodePhase_cases (s : State) : DecodeOutcome s (decodePhase s) := by
  unfold decodePhase
  split
  · exact .error { kind := .decodeError, detail := some s.ir } s (.inl rfl) ⟨s.op1, s.op2, rfl⟩
  · next h => exact .halt h
  · next m hh hm =>
    rcases fetchOperands_cases (lengthOf m) s with ⟨op1, op2, e⟩ | ⟨k, e⟩
    · rw [e]
      have h := resolvePhase_cases m { s with op1 := op1, op2 := op2 } hm hh
      simp only at h ⊢
      cases h' : resolvePhase m { s with op1 := op1, op2 := op2 } with
      | raised u =>
        rw [h'] at h
        cases h with
        | error t u hk hu =>
          obtain ⟨a, b, rfl⟩ := hu
          exact .error t _ hk ⟨a, b, rfl⟩
      | ready i u =>
        rw [h'] at h
        cases h with
        | halt hi => rw [hm] at hi; cases hi; exact absurd rfl hh
        | ready i a b hm hh hr => exact .ready i a b hm hh hr
    · rw [e]
      exact .error { kind := .boundsError, detail := some (BitVec.ofNat 8 (s.iaddr.toNat + k)) } s (.inr rfl)
        ⟨s.op1, s.op2, rfl⟩

/-- The state an instruction is executed in: only latches and `st` differ from the state before the step. -/
def withLatches (s : State) (iaddr ir op1 op2 : Byte) (st : Phase) : State :=
  { s with iaddr := iaddr, ir := ir, op1 := op1, op2 := op2, st := st }

/-- The address of the instruction a step works on: `pc` at FETCH, the latch afterwards (R82). -/
def instrAddress (s : State) : Byte := if s.st = .fetch then s.pc else s.iaddr

/-- Everything a step can do: stay in a terminal state; take a precise error of FETCH or DECODE; execute an
instruction. -/
inductive StepOutcome (s : State) : State → Prop where
  | terminal (h : s.st = .halted ∨ s.st = .faulted) : StepOutcome s s
  | error (opcode : Option Byte) (t : Trap) (ir op1 op2 : Byte) (st : Phase)
      (h : s.st ≠ .halted ∧ s.st ≠ .faulted) (hk : t.kind = .decodeError ∨ t.kind = .boundsError) :
      StepOutcome s (enterFaulted opcode t (withLatches s (instrAddress s) ir op1 op2 st))
  | exec (i : Instr) (ir op1 op2 : Byte) (st : Phase) (t : State)
      (h : s.st ≠ .halted ∧ s.st ≠ .faulted)
      (hm : mnemonicOf ir = some (mnemonicOfInstr i)) (hr : resolve (mnemonicOfInstr i) op1 op2 = .ok i)
      (hf : if s.st = .fetch then s.prog[s.pc.toNat]? = some ir else ir = s.ir)
      (ho : ExecOutcome i (withLatches s (instrAddress s) ir op1 op2 st) t) : StepOutcome s t

theorem executePhase_decode (s t : State) (h : executePhase (decodePhase s) = .next t) :
    (∃ tr op1 op2 st, (tr.kind = .decodeError ∨ tr.kind = .boundsError) ∧
      t = enterFaulted (some s.ir) tr (withLatches s s.iaddr s.ir op1 op2 st)) ∨
    ∃ i op1 op2 st, mnemonicOf s.ir = some (mnemonicOfInstr i) ∧ resolve (mnemonicOfInstr i) op1 op2 = .ok i ∧
      ExecOutcome i (withLatches s s.iaddr s.ir op1 op2 st) t := by
  have hd := decodePhase_cases s
  cases hr : decodePhase s with
  | raised u =>
    rw [hr] at h hd
    cases h
    cases hd with
    | error tr u hk hu =>
      obtain ⟨op1, op2, rfl⟩ := hu
      exact .inl ⟨tr, op1, op2, s.st, hk, rfl⟩
  | ready i u =>
    rw [hr] at h hd
    have ho := exec_next i u t h
    cases hd with
    | halt hi => exact .inr ⟨.halt, s.op1, s.op2, s.st, hi, rfl, ho⟩
    | ready i op1 op2 hm hh hres => exact .inr ⟨i, op1, op2, .execute, hm, hres, ho⟩

theorem executePhase_latched (s t : State) (h : executePhase (latchedInstr s) = .next t) :
    (∃ tr op1 op2 st, (tr.kind = .decodeError ∨ tr.kind = .boundsError) ∧
      t = enterFaulted (some s.ir) tr (withLatches s s.iaddr s.ir op1 op2 st)) ∨
    ∃ i op1 op2 st, mnemonicOf s.ir = some (mnemonicOfInstr i) ∧ resolve (mnemonicOfInstr i) op1 op2 = .ok i ∧
      ExecOutcome i (withLatches s s.iaddr s.ir op1 op2 st) t := by
  unfold latchedInstr at h
  split at h
  · cases h
    exact .inl ⟨_, s.op1, s.op2, s.st, .inl rfl, rfl⟩
  · next m hm =>
    unfold resolvePhase at h
    split at h
    · cases h
      exact .inl ⟨_, s.op1, s.op2, s.st, .inl rfl, rfl⟩
    · next i hi =>
      have e := resolve_mnemonic m _ _ i hi
      exact .inr ⟨i, s.op1, s.op2, .execute, by rw [hm, e], by rw [e]; exact hi, exec_next i _ t h⟩

/-- The inversion of `step`. -/
theorem step_cases (s t : State) (h : step s = .next t) : StepOutcome s t := by
  unfold step at h
  split at h
  · next hst =>
    have hne : s.st ≠ .halted ∧ s.st ≠ .faulted := by simp [hst]
    have ha : instrAddress s = s.pc := if_pos hst
    cases hp : s.prog[s.pc.toNat]? with
    | none =>
      simp only [fetchPhase, progRead, hp, raiseTrap, isStackFault, afterFetch] at h
      cases h
      have key := StepOutcome.error none { kind := .boundsError, detail := some (BitVec.ofNat 8 s.pc.toNat) }
        s.ir s.op1 s.op2 s.st hne (.inr rfl)
      rw [ha] at key
      exact key
    | some op =>
      simp only [fetchPhase, progRead, hp, afterFetch] at h
      rcases executePhase_decode _ t h with ⟨tr, op1, op2, st, hk, rfl⟩ | ⟨i, op1, op2, st, hm, hres, ho⟩
      · have key := StepOutcome.error (some op) tr op op1 op2 st hne hk
        rw [ha] at key
        exact key
      · exact .exec i op op1 op2 st t hne hm hres (by rw [if_pos hst, hp]) (by rw [ha]; exact ho)
  · next hst =>
    have hne : s.st ≠ .halted ∧ s.st ≠ .faulted := by simp [hst]
    have ha : instrAddress s = s.iaddr := if_neg (by simp [hst])
    rcases executePhase_decode _ t h with ⟨tr, op1, op2, st, hk, rfl⟩ | ⟨i, op1, op2, st, hm, hres, ho⟩
    · have key := StepOutcome.error (some s.ir) tr s.ir op1 op2 st hne hk
      rw [ha] at key
      exact key
    · exact .exec i s.ir op1 op2 st t hne hm hres (by simp [hst]) (by rw [ha]; exact ho)
  · next hst =>
    have hne : s.st ≠ .halted ∧ s.st ≠ .faulted := by simp [hst]
    have ha : instrAddress s = s.iaddr := if_neg (by simp [hst])
    rcases executePhase_latched _ t h with ⟨tr, op1, op2, st, hk, rfl⟩ | ⟨i, op1, op2, st, hm, hres, ho⟩
    · have key := StepOutcome.error (some s.ir) tr s.ir op1 op2 st hne hk
      rw [ha] at key
      exact key
    · exact .exec i s.ir op1 op2 st t hne hm hres (by simp [hst]) (by rw [ha]; exact ho)
  · next hst =>
    cases h
    exact .terminal (.inl hst)
  · next hst =>
    cases h
    exact .terminal (.inr hst)

end Sys2Proof.Machine
end

