-- ==== Sys2Proof/Laws/PerInstr.lean ====
section
/-! SUPPORT. Facts about each instruction as syntax, one lemma per constructor. -/

namespace Sys2Proof.Laws

/-- The opcode byte of an encoding names the instruction, and decides its length (30_encoding.md R60, R61). -/
def EncodingShape.Statement (i : Instr) : Prop :=
  (encode i).length = lengthOf (mnemonicOfInstr i) ∧ 1 ≤ (encode i).length ∧ (encode i).length ≤ 3 ∧
    (encode i).head?.bind mnemonicOf = some (mnemonicOfInstr i)

theorem EncodingShape.add (rd rs : Reg) : EncodingShape.Statement (.add rd rs) := by
  simp [EncodingShape.Statement, encode, lengthOf, formatLength, formatOf, mnemonicOfInstr]
theorem EncodingShape.sub (rd rs : Reg) : EncodingShape.Statement (.sub rd rs) := by
  simp [EncodingShape.Statement, encode, lengthOf, formatLength, formatOf, mnemonicOfInstr]
theorem EncodingShape.addc (rd rs : Reg) : EncodingShape.Statement (.addc rd rs) := by
  simp [EncodingShape.Statement, encode, lengthOf, formatLength, formatOf, mnemonicOfInstr]
theorem EncodingShape.inc (rd : Reg) : EncodingShape.Statement (.inc rd) := by
  simp [EncodingShape.Statement, encode, lengthOf, formatLength, formatOf, mnemonicOfInstr]
theorem EncodingShape.loadDirect (r : Reg) (addr : Byte) : EncodingShape.Statement (.loadDirect r addr) := by
  simp [EncodingShape.Statement, encode, lengthOf, formatLength, formatOf, mnemonicOfInstr]
theorem EncodingShape.readIo (rd : Reg) : EncodingShape.Statement (.readIo rd) := by
  simp [EncodingShape.Statement, encode, lengthOf, formatLength, formatOf, mnemonicOfInstr]
theorem EncodingShape.store (r : Reg) (addr : Byte) : EncodingShape.Statement (.store r addr) := by
  simp [EncodingShape.Statement, encode, lengthOf, formatLength, formatOf, mnemonicOfInstr]
theorem EncodingShape.shl (rd : Reg) : EncodingShape.Statement (.shl rd) := by
  simp [EncodingShape.Statement, encode, lengthOf, formatLength, formatOf, mnemonicOfInstr]
theorem EncodingShape.shr (rd : Reg) : EncodingShape.Statement (.shr rd) := by
  simp [EncodingShape.Statement, encode, lengthOf, formatLength, formatOf, mnemonicOfInstr]
theorem EncodingShape.and (rd rs : Reg) : EncodingShape.Statement (.and rd rs) := by
  simp [EncodingShape.Statement, encode, lengthOf, formatLength, formatOf, mnemonicOfInstr]
theorem EncodingShape.or (rd rs : Reg) : EncodingShape.Statement (.or rd rs) := by
  simp [EncodingShape.Statement, encode, lengthOf, formatLength, formatOf, mnemonicOfInstr]
theorem EncodingShape.xor (rd rs : Reg) : EncodingShape.Statement (.xor rd rs) := by
  simp [EncodingShape.Statement, encode, lengthOf, formatLength, formatOf, mnemonicOfInstr]
theorem EncodingShape.complement (rd : Reg) : EncodingShape.Statement (.complement rd) := by
  simp [EncodingShape.Statement, encode, lengthOf, formatLength, formatOf, mnemonicOfInstr]
theorem EncodingShape.branchIfZero (target : Byte) : EncodingShape.Statement (.branchIfZero target) := by
  simp [EncodingShape.Statement, encode, lengthOf, formatLength, formatOf, mnemonicOfInstr]
theorem EncodingShape.branchIfCarry (target : Byte) : EncodingShape.Statement (.branchIfCarry target) := by
  simp [EncodingShape.Statement, encode, lengthOf, formatLength, formatOf, mnemonicOfInstr]
theorem EncodingShape.halt : EncodingShape.Statement .halt := by
  simp [EncodingShape.Statement, encode, lengthOf, formatLength, formatOf, mnemonicOfInstr]

end Sys2Proof.Laws
end

