-- ==== Sys2Proof/Tests/Slice0.lean ====
section
/-! SUPPORT. The model's own tests: ill-formed terms, decoding of words written out from 30_encoding.md, one step per
instruction on the vectors of 95_test_vectors.md, and a witness for the hypotheses of each statement. -/

namespace Sys2Proof.Tests

open Sys2Proof Sys2Proof.Machine

/-- A machine after reset with `prog` loaded. -/
def boot (prog : List Byte) : State := { State.reset with prog := prog }

/-- The same with registers A and B preset (95_test_vectors.md section 2). -/
def bootAB (a b : Byte) (prog : List Byte) : State :=
  { boot prog with regs := { a := a, b := b, c := 0#8, d := 0#8, e := 0#8 } }

/-- Fields of the state after one step. -/
def after {α : Type} (f : State → α) (s : State) : Option α :=
  match step s with
  | .next t => some (f t)
  | .fault _ => none
  | .refused _ => none

/-- The flags in the order of 95_test_vectors.md: C Z V N. -/
def czvn (s : State) : Bool × Bool × Bool × Bool := (s.flags.c, s.flags.z, s.flags.v, s.flags.n)

/-- FAULTED or not, and the error record. -/
def fault (s : State) : Phase × ErrRecord := (s.st, s.err)

/-! ### Well-formedness: one ill-formed term for each check (R205, R155) -/

theorem test_illFormed_load_address : Instr.wellFormed (.loadDirect .a 100#8) = false := by decide
theorem test_illFormed_store_address : Instr.wellFormed (.store .e 255#8) = false := by decide
theorem test_illFormed_zero_target : Instr.wellFormed (.branchIfZero 50#8) = false := by decide
theorem test_illFormed_carry_target : Instr.wellFormed (.branchIfCarry 0xFF#8) = false := by decide
theorem test_illFormed_image : imageWellFormed (List.replicate 51 0#8) = false := by decide
theorem test_wellFormed_edges :
    Instr.wellFormed (.loadDirect .a 99#8) = true ∧ Instr.wellFormed (.store .a 99#8) = true ∧
    Instr.wellFormed (.branchIfZero 49#8) = true ∧ Instr.wellFormed (.branchIfCarry 49#8) = true ∧
    imageWellFormed (List.replicate 50 0#8) = true := by decide

/-! ### Decoding: the bytes of each instruction, bit by bit from R62, R66, R70 -/

theorem test_decode_add : decode [0b00000000#8, 0b11110000#8, 0b11110001#8] = .instr (.add .a .b) [] := by decide
theorem test_decode_sub : decode [0b00000001#8, 0b11110000#8, 0b11110011#8] = .instr (.sub .a .d) [] := by decide
theorem test_decode_addc : decode [0b00000010#8, 0b11110010#8, 0b11110001#8] = .instr (.addc .c .b) [] := by decide
theorem test_decode_inc : decode [0b00000011#8, 0b11110011#8] = .instr (.inc .d) [] := by decide
theorem test_decode_loadDirect :
    decode [0b00000100#8, 0b11110001#8, 0b00000110#8] = .instr (.loadDirect .b 6#8) [] := by decide
theorem test_decode_readIo : decode [0b00000101#8, 0b11110010#8] = .instr (.readIo .c) [] := by decide
theorem test_decode_store :
    decode [0b00000110#8, 0b11110010#8, 0b00011110#8] = .instr (.store .c 30#8) [] := by decide
theorem test_decode_shl : decode [0b00000111#8, 0b11110000#8] = .instr (.shl .a) [] := by decide
theorem test_decode_shr : decode [0b00001000#8, 0b11110100#8] = .instr (.shr .e) [] := by decide
theorem test_decode_and : decode [0b00001001#8, 0b11110000#8, 0b11110001#8] = .instr (.and .a .b) [] := by decide
theorem test_decode_or : decode [0b00001010#8, 0b11110001#8, 0b11110000#8] = .instr (.or .b .a) [] := by decide
theorem test_decode_xor : decode [0b00001011#8, 0b11110100#8, 0b11110100#8] = .instr (.xor .e .e) [] := by decide
theorem test_decode_complement : decode [0b00001100#8, 0b11110000#8] = .instr (.complement .a) [] := by decide
theorem test_decode_branchIfZero :
    decode [0b00001101#8, 0b00011011#8] = .instr (.branchIfZero 0x1B#8) [] := by decide
theorem test_decode_branchIfCarry :
    decode [0b00001110#8, 0b00100000#8] = .instr (.branchIfCarry 0x20#8) [] := by decide
theorem test_decode_halt : decode [0b00010000#8, 0xAB#8] = .instr .halt [0xAB#8] := by decide

/-- The document's scenario 1, bytes `04 F0 05 04 F1 06 00 F0 F1 10`, first instruction (S5). -/
theorem test_decode_leaves_rest :
    decode [0x04#8, 0xF0#8, 0x05#8, 0x04#8] = .instr (.loadDirect .a 5#8) [0x04#8] := by decide

theorem test_decode_rejects :
    decode [] = .rejected .noOpcode ∧ decode [0x0F#8] = .rejected (.illegalOpcode 0x0F#8) ∧
    decode [0x03#8] = .rejected (.missingOperand 1) ∧ decode [0x00#8, 0xF0#8] = .rejected (.missingOperand 2) ∧
    decode [0x00#8, 0xEF#8, 0xF7#8] = .rejected (.badSelector 0xEF#8) ∧
    decode [0x00#8, 0xF0#8, 0x10#8] = .rejected (.badSelector 0x10#8) := by decide

/-- Bits numbered as spec/opcode_table.json numbers them: byte 0 in bits 7..0. -/
theorem test_decodeTableWord :
    decodeTableWord 24 0xF1F000 = some (.add .a .b) ∧ decodeTableWord 8 0x10 = some .halt ∧
    decodeTableWord 8 0x0D = some (.branchIfZero 0#8) ∧ decodeTableWord 8 0x00 = none ∧
    decodeTableWord 8 0x0F = none := by decide

theorem test_withFetchWord_runs : after (fun t => t.regs.d) (State.reset.withFetchWord 16 0xF303) = some 1#8 := by
  decide

/-! ### One step per instruction (95_test_vectors.md sections 2.2 to 2.6) -/

theorem test_add_carry : after (fun t => (t.regs.a, czvn t)) (bootAB 0xC8#8 0x64#8 [0x00#8, 0xF0#8, 0xF1#8]) =
    some (0x2C#8, true, false, false, false) := by decide
theorem test_add_same_register : after (fun t => (t.regs.a, czvn t)) (bootAB 0x80#8 0#8 [0x00#8, 0xF0#8, 0xF0#8]) =
    some (0x00#8, true, true, true, false) := by decide
theorem test_sub_borrow : after (fun t => (t.regs.a, czvn t)) (bootAB 0x05#8 0x07#8 [0x01#8, 0xF0#8, 0xF1#8]) =
    some (0xFE#8, false, false, false, true) := by decide
theorem test_sub_0x80 : after (fun t => (t.regs.a, czvn t)) (bootAB 0x80#8 0x80#8 [0x01#8, 0xF0#8, 0xF1#8]) =
    some (0x00#8, true, true, true, false) := by decide
theorem test_addc_register_and_scratch :
    after (fun t => (t.regs.a, memLookup t.mem 10))
      { bootAB 0x01#8 0x02#8 [0x02#8, 0xF0#8, 0xF1#8] with flags := { c := true, z := false, v := false, n := false } } =
    some (0x04#8, 0x03#8) := by decide
theorem test_addc_lost_carry :
    after (fun t => (t.regs.a, czvn t))
      { bootAB 0xFF#8 0x00#8 [0x02#8, 0xF0#8, 0xF1#8] with flags := { c := true, z := true, v := true, n := false } } =
    some (0x00#8, false, false, false, true) := by decide
theorem test_inc_wraps : after (fun t => (t.regs.a, t.pc)) (bootAB 0xFF#8 0#8 [0x03#8, 0xF0#8]) =
    some (0x00#8, 2#8) := by decide
theorem test_loadDirect_last_cell :
    after (fun t => (t.regs.e, t.pc)) { boot [0x04#8, 0xF4#8, 0x63#8] with mem := [(99, 0xC3#8)] } =
    some (0xC3#8, 3#8) := by decide
theorem test_loadDirect_outside : after fault (boot [0x04#8, 0xF0#8, 0x64#8]) =
    some (.faulted, { kind := .boundsError, pc := 0#8, opcode := some 0x04#8, detail := 0x64#8 }) := by decide
theorem test_readIo_value :
    after (fun t => (t.regs.c, t.inputPos)) { boot [0x05#8, 0xF2#8] with
      input := { answers := [.value 0x41#8, .value 0x42#8], tail := .ends } } =
    some (0x41#8, 1) := by decide
theorem test_readIo_end_of_input : after (fun t => (t.st, t.err.kind, t.err.opcode, t.pc)) (boot [0x05#8, 0xF0#8]) =
    some (.faulted, .inputUnavailable, some 0x05#8, 0#8) := by decide
theorem test_store_scratch_cell : after (fun t => memLookup t.mem 10) (bootAB 0x21#8 0#8 [0x06#8, 0xF0#8, 0x0A#8]) =
    some 0x21#8 := by decide
theorem test_store_outside : after (fun t => (fault t, t.mem)) (bootAB 0x77#8 0#8 [0x06#8, 0xF0#8, 0x64#8]) =
    some ((.faulted, { kind := .boundsError, pc := 0#8, opcode := some 0x06#8, detail := 0x64#8 }), []) := by decide
theorem test_shl : after (fun t => (t.regs.a, czvn t)) (bootAB 0x81#8 0#8 [0x07#8, 0xF0#8]) =
    some (0x02#8, false, false, false, false) := by decide
theorem test_shr : after (fun t => t.regs.a) (bootAB 0x81#8 0#8 [0x08#8, 0xF0#8]) = some 0x40#8 := by decide
theorem test_and : after (fun t => t.regs.a) (bootAB 0xCC#8 0xAA#8 [0x09#8, 0xF0#8, 0xF1#8]) = some 0x88#8 := by
  decide
theorem test_or : after (fun t => t.regs.a) (bootAB 0xCC#8 0xAA#8 [0x0A#8, 0xF0#8, 0xF1#8]) = some 0xEE#8 := by decide
theorem test_xor : after (fun t => t.regs.a) (bootAB 0xCC#8 0xAA#8 [0x0B#8, 0xF0#8, 0xF1#8]) = some 0x66#8 := by decide
theorem test_xor_keeps_flags : after (fun t => (t.regs.a, czvn t)) (bootAB 0x37#8 0#8 [0x0B#8, 0xF0#8, 0xF0#8]) =
    some (0#8, false, false, false, false) := by decide
theorem test_complement : after (fun t => t.regs.a) (bootAB 0x5A#8 0#8 [0x0C#8, 0xF0#8]) = some 0xA5#8 := by decide
theorem test_branchIfZero_ignores_carry :
    after (fun t => t.pc) { boot [0x0D#8, 0x05#8] with flags := { c := true, z := false, v := false, n := false } } =
    some 2#8 := by decide
theorem test_branchIfZero_outside_image :
    after (fun t => (t.st, t.pc))
      { boot [0x0D#8, 0x40#8] with flags := { c := false, z := true, v := false, n := false } } =
    some (.fetch, 0x40#8) := by decide
theorem test_branchIfCarry_taken :
    after (fun t => t.pc) { boot [0x0E#8, 0x20#8] with flags := { c := true, z := false, v := false, n := false } } =
    some 0x20#8 := by decide
theorem test_branchIfCarry_not_taken : after (fun t => t.pc) (boot [0x0E#8, 0x20#8]) = some 2#8 := by decide
theorem test_halt_last_byte : after (fun t => (t.st, t.pc)) { boot [0x03#8, 0xF0#8, 0x10#8] with pc := 2#8 } =
    some (.halted, 2#8) := by decide

/-! ### Fetch and decode errors and their priority (R179; 95_test_vectors.md section 2.7) -/

theorem test_error_empty_program : after fault State.reset =
    some (.faulted, { kind := .boundsError, pc := 0#8, opcode := none, detail := 0#8 }) := by decide
theorem test_error_missing_byte_before_selector : after fault (boot [0x04#8, 0x00#8]) =
    some (.faulted, { kind := .boundsError, pc := 0#8, opcode := some 0x04#8, detail := 2#8 }) := by decide
theorem test_error_selector_before_address : after fault (boot [0x04#8, 0x00#8, 0xC8#8]) =
    some (.faulted, { kind := .decodeError, pc := 0#8, opcode := some 0x04#8, detail := 0#8 }) := by decide
theorem test_error_selector_before_input : after (fun t => (fault t, t.inputPos)) (boot [0x05#8, 0x77#8]) =
    some ((.faulted, { kind := .decodeError, pc := 0#8, opcode := some 0x05#8, detail := 0x77#8 }), 0) := by decide
theorem test_error_selector_is_no_opcode : after fault (boot [0xF0#8]) =
    some (.faulted, { kind := .decodeError, pc := 0#8, opcode := some 0xF0#8, detail := 0xF0#8 }) := by decide

/-! ### Witnesses: states and operands that meet the hypotheses of the statements -/

theorem witness_DecodedBytesAreTheEncoding : decode [0x03#8, 0xF4#8, 0x10#8] = .instr (.inc .e) [0x10#8] := by decide

theorem witness_OpcodeTable :
    mnemonicOf 0x10#8 = some .halt ∧ mnemonicOf 0x0B#8 = some .xor ∧ mnemonicOf 0x0E#8 = some .branchIfCarry := by
  decide

theorem witness_StepRunsDecodedInstruction :
    let s := boot [0x03#8, 0xF4#8]
    s.st = .fetch ∧ decode (s.prog.drop s.pc.toNat) = .instr (.inc .e) [] := by decide

theorem witness_FetchReadsOpcodeOrRaises :
    (boot [0x10#8]).st = .fetch ∧ (boot [0x10#8]).prog[(boot [0x10#8]).pc.toNat]? = some 0x10#8 ∧
    State.reset.st = .fetch ∧ State.reset.prog.length ≤ State.reset.pc.toNat := by decide

theorem witness_IllegalOpcodeRaises : ∀ op ∈ [0x0F#8, 0x11#8, 0xFF#8],
    (boot [op]).st = .fetch ∧ (boot [op]).prog[(boot [op]).pc.toNat]? = some op ∧ (op = 0x0F#8 ∨ 0x11 ≤ op.toNat) := by
  decide

/-- Every clause of `fetchErrors`, for every opcode whose format the clause speaks of. -/
theorem witness_fetchErrors_first_missing (m : Mnemonic) (h : m ≠ .halt) :
    let s := boot [opcodeOf m]
    s.st = .fetch ∧ s.prog[s.pc.toNat]? = some (opcodeOf m) ∧ 2 ≤ formatLength (formatOf m) ∧
      s.prog.length ≤ s.pc.toNat + 1 := by revert h; cases m <;> decide

theorem witness_fetchErrors_second_missing (m : Mnemonic) (h : formatLength (formatOf m) = 3) :
    let s := boot [opcodeOf m, 0xF0#8]
    s.st = .fetch ∧ s.prog[s.pc.toNat]? = some (opcodeOf m) ∧ formatLength (formatOf m) = 3 ∧
      s.prog.length = s.pc.toNat + 2 := by revert h; cases m <;> decide

theorem witness_fetchErrors_first_selector (m : Mnemonic) (h : formatOf m ≠ .n ∧ formatOf m ≠ .t) :
    let s := boot [opcodeOf m, 0xF5#8, 0xEF#8]
    s.st = .fetch ∧ s.prog[s.pc.toNat]? = some (opcodeOf m) ∧ formatOf m ≠ .n ∧ formatOf m ≠ .t ∧
      s.pc.toNat + formatLength (formatOf m) ≤ s.prog.length ∧ s.prog[s.pc.toNat + 1]? = some 0xF5#8 ∧
      regOf 0xF5#8 = none := by revert h; cases m <;> decide

theorem witness_fetchErrors_second_selector (m : Mnemonic) (h : formatOf m = .rr) :
    let s := boot [opcodeOf m, 0xF4#8, 0xEF#8]
    s.st = .fetch ∧ s.prog[s.pc.toNat]? = some (opcodeOf m) ∧ formatOf m = .rr ∧
      s.prog[s.pc.toNat + 1]? = some 0xF4#8 ∧ s.prog[s.pc.toNat + 2]? = some 0xEF#8 ∧
      regOf 0xF4#8 ≠ none ∧ regOf 0xEF#8 = none := by revert h; cases m <;> decide

theorem witness_TerminalStatesStay :
    ({ boot [] with st := .halted } : State).st = .halted ∧ ({ boot [] with st := .faulted } : State).st = .faulted := by
  decide

theorem witness_HaltedOnlyByHalt :
    (boot [0x10#8]).st = .fetch ∧ ∃ t, step (boot [0x10#8]) = .next t ∧ t.st = .halted := ⟨rfl, _, rfl, rfl⟩

/-- Target equal to `L`, the first index outside the image, for either branch. -/
theorem witness_BranchTargetCheckedAtNextFetch :
    (let s := { boot [0x0D#8, 0x02#8] with flags := { c := false, z := true, v := false, n := false } }
     s.st = .fetch ∧ s.prog.length ≤ (0x02#8).toNat ∧
       decode (s.prog.drop s.pc.toNat) = .instr (.branchIfZero 0x02#8) [] ∧ s.flags.z = true) ∧
    (let s := { boot [0x0E#8, 0xFF#8] with flags := { c := true, z := false, v := false, n := false } }
     s.st = .fetch ∧ s.prog.length ≤ (0xFF#8).toNat ∧
       decode (s.prog.drop s.pc.toNat) = .instr (.branchIfCarry 0xFF#8) [] ∧ s.flags.c = true) := by decide

/-- A machine that has been reset, loaded with at most 50 bytes and given an input source is good. -/
theorem good_of_boot (prog : List Byte) (input : InputSource) (h : prog.length ≤ 50) :
    State.Good { boot prog with input := input } :=
  ⟨rfl, rfl, h, .inl rfl, ⟨fun hc => absurd hc (by simp [boot, State.reset, State.start]), fun hc => absurd rfl hc⟩,
    fun hc => absurd hc (by simp [boot, State.reset, State.start]),
    by simp [State.stackFaultFree, boot, State.reset, State.start]⟩

theorem boot_good (prog : List Byte) (h : prog.length ≤ 50) : (boot prog).Good := good_of_boot prog _ h

theorem witness_PcCommit :
    (boot [0x03#8, 0xF0#8]).Good ∧ (boot [0x03#8, 0xF0#8]).st = .fetch ∧
      ∃ t, step (boot [0x03#8, 0xF0#8]) = .next t ∧ t.st = .fetch :=
  ⟨boot_good _ (by decide), rfl, _, rfl, rfl⟩

theorem witness_ShiftAndNegationIdioms : (List.replicate 11 0#8).length + 5 ≤ Config.stackDepth := by decide

theorem witness_AddcFlagsIgnoreCarryIn :
    ((0xFF#8).toNat + (0x00#8).toNat) % 256 = 0xFF ∧ (0x7F#8).toNat + (0x00#8).toNat = 0x7F ∧
    ((0xFE#8).toNat + (0x01#8).toNat) % 256 = 0xFF ∧ (0x40#8).toNat + (0x3F#8).toNat = 0x7F := by decide

/-- Room for one save set and for two, at the last stack length that has it (ADD; SUB, ADDC, AluCalls). -/
theorem witness_adder_room :
    State.memoryWf { boot [] with stk := List.replicate 11 0#8 } ∧ (List.replicate 11 0#8).length + 5 ≤ Config.stackDepth ∧
    State.memoryWf { boot [] with stk := List.replicate 6 0#8 } ∧
    (List.replicate 6 0#8).length + 10 ≤ Config.stackDepth := by
  refine ⟨rfl, by decide, rfl, by decide⟩

theorem witness_address_bounds : (99#8).toNat ≤ 99 ∧ 99 < (100#8).toNat ∧ State.memoryWf (boot []) := by
  refine ⟨by decide, by decide, rfl⟩

theorem witness_address_outside_at_step :
    (boot [0x04#8, 0xF0#8, 0x64#8]).st = .fetch ∧
      decode ((boot [0x04#8, 0xF0#8, 0x64#8]).prog.drop (boot [0x04#8, 0xF0#8, 0x64#8]).pc.toNat) =
        .instr (.loadDirect .a 0x64#8) [] ∧
      decode ((boot [0x06#8, 0xF0#8, 0xFF#8]).prog.drop (boot [0x06#8, 0xF0#8, 0xFF#8]).pc.toNat) =
        .instr (.store .a 0xFF#8) [] := by decide

theorem witness_ReadIoInstruction :
    let s := { boot [] with input := { answers := [.value 0#8], tail := .ends } }
    inputAnswer s.input s.inputPos = some (.value 0#8) := by decide

theorem witness_ReadIoWithoutInput :
    let s := { boot [0x05#8, 0xF0#8] with input := { answers := [.value 0#8], tail := .ends }, inputPos := 1 }
    s.input.tail = .ends ∧ s.input.answers.length ≤ s.inputPos ∧ s.st = .fetch ∧ decode (s.prog.drop s.pc.toNat) = .instr (.readIo .a) [] := by
  decide

/-- Reached from a loaded machine: the source says "not yet" once, then gives a value. -/
theorem witness_ReadIoWaitsAndResumes :
    ∃ s, step { boot [0x05#8, 0xF1#8] with
        input := { answers := [.notYet, .notYet, .value 9#8], tail := .ends } } = .next s ∧
      s.st = .execute ∧ s.ir = 0x05#8 ∧ s.op1 = selectorOf .b ∧ inputAnswer s.input s.inputPos = some .notYet :=
  ⟨_, rfl, rfl, rfl, rfl, rfl⟩

theorem witness_HaltInstruction :
    (boot [0x10#8]).st = .fetch ∧ (boot [0x10#8]).prog[(boot [0x10#8]).pc.toNat]? = some 0x10#8 := by decide

theorem witness_AddcWithoutCarryIsAdd :
    let s := { bootAB 0xFF#8 0x01#8 [] with stk := List.replicate 6 0#8 }
    s.stk.length + 10 ≤ Config.stackDepth ∧ s.flags.c = false := by decide

theorem witness_FlagWriters :
    (boot []).stk.length + 10 ≤ Config.stackDepth ∧
    (∃ t, exec (.add .a .b) (boot []) = .next t) ∧ (∃ t, exec (.sub .a .b) (boot []) = .next t) ∧
    (∃ t, exec (.addc .a .b) (boot []) = .next t) ∧
    mnemonicOfInstr (.xor .a .a) ≠ .add ∧ mnemonicOfInstr (.xor .a .a) ≠ .sub ∧
    mnemonicOfInstr (.xor .a .a) ≠ .addc ∧ ∃ t, exec (.xor .a .a) (boot []) = .next t :=
  ⟨by decide, ⟨_, rfl⟩, ⟨_, rfl⟩, ⟨_, rfl⟩, by decide, by decide, by decide, _, rfl⟩

theorem witness_OverflowAndNegativeNeverRead :
    ∃ t u, exec (.addc .a .b) (boot []) = .next t ∧
      exec (.addc .a .b) { boot [] with flags := { (boot []).flags with v := true, n := true } } = .next u :=
  ⟨_, _, rfl, rfl⟩

theorem witness_MemoryWriters :
    (∃ t, exec (.add .a .b) (bootAB 1#8 2#8 []) = .next t ∧ memLookup t.mem 10 ≠ memLookup (bootAB 1#8 2#8 []).mem 10) ∧
    (∃ t, exec (.store .a 99#8) (bootAB 1#8 2#8 []) = .next t ∧
      memLookup t.mem 99 ≠ memLookup (bootAB 1#8 2#8 []).mem 99) ∧ State.stackEmpty (bootAB 1#8 2#8 []) :=
  ⟨⟨_, rfl, by decide⟩, ⟨_, rfl, by decide⟩, rfl⟩

theorem witness_RegisterWriters :
    (∃ t, exec (.add .a .b) (bootAB 1#8 2#8 []) = .next t ∧ getReg t.regs .a ≠ getReg (bootAB 1#8 2#8 []).regs .a) ∧
    (∃ t, exec (.inc .e) (bootAB 1#8 2#8 []) = .next t ∧ getReg t.regs .e ≠ getReg (bootAB 1#8 2#8 []).regs .e) ∧
    State.stackEmpty (bootAB 1#8 2#8 []) :=
  ⟨⟨_, rfl, by decide⟩, ⟨_, rfl, by decide⟩, rfl⟩

theorem witness_ImageAndInputConstant : ∃ t, step (boot [0x03#8, 0xF0#8]) = .next t := ⟨_, rfl⟩

/-- A completing, a halting, a faulting and a waiting step. -/
theorem witness_OneEventPerCompletedInstruction :
    (∃ t, step (boot [0x03#8, 0xF0#8]) = .next t ∧ t.st = .fetch) ∧
    (∃ t, step (boot [0x10#8]) = .next t ∧ t.st = .halted) ∧
    (∃ t, step (boot [0x05#8, 0xF0#8]) = .next t ∧ t.st = .faulted) ∧
    (∃ t, step { boot [0x05#8, 0xF0#8] with input := { answers := [], tail := .repeats .notYet [] } } = .next t ∧ t.st = .execute) ∧
    decode [0x05#8, 0xF0#8] = .instr (.readIo .a) [] :=
  ⟨⟨_, rfl, rfl⟩, ⟨_, rfl, rfl⟩, ⟨_, rfl, rfl⟩, ⟨_, rfl, rfl⟩, by decide⟩

theorem witness_PushAndPop :
    (List.replicate 15 0#8).length < Config.stackDepth ∧ (List.replicate 16 0#8).length = Config.stackDepth ∧
    (boot []).stk = [] := by decide

theorem witness_StackOverflowInAdder :
    Config.stackDepth < (List.replicate 12 0#8).length + 5 ∧ Config.stackDepth < (List.replicate 7 0#8).length + 10 := by
  decide

/-- An image of exactly 50 bytes, `INC A` 25 times. -/
def fullImage : List Byte := (List.replicate 25 [0x03#8, 0xF0#8]).flatten

theorem witness_legalStart : legalStart [(5, 3#8), (6, 4#8)] fullImage := by unfold legalStart; decide

theorem witness_StackFaultsNeverHappen :
    ∃ t, Host.Core.run Sys2Proof.core 1 (State.start (boot []).regs [(5, 3#8)] [0x00#8, 0xF0#8, 0xF1#8]
      { answers := [], tail := .values 0 }) = .next t :=
  ⟨_, rfl⟩

theorem witness_ReadReturnsLatestWrite :
    State.memoryWf (boot []) ∧ (∃ t, memWrite 99#8 7#8 (boot []) = .ok t) ∧ (98#8 : Byte) ≠ 99#8 :=
  ⟨rfl, ⟨_, rfl⟩, by decide⟩

/-- The last byte of a finite sequence and the first index past it; an infinite one after its listed byte. -/
theorem witness_InputSequence :
    ([7#8, 8#8] : List Byte)[1]? = some 8#8 ∧ ([7#8, 8#8] : List Byte).length ≤ 2 ∧
    ({ boot [] with input := { answers := [7#8].map .value, tail := .values 3 }, inputPos := 1 } : State).input =
      { answers := [7#8].map .value, tail := .values 3 } := by decide

theorem witness_InfiniteInputNeverUnavailable :
    let s := { boot [0x05#8, 0xF0#8] with input := { answers := [], tail := .values 0 } }
    s.Good ∧ s.st ≠ .faulted ∧ s.input.tail ≠ .ends ∧ ∃ t, step s = .next t :=
  ⟨good_of_boot _ _ (by decide), by decide, by decide, _, rfl⟩

/-- An input that is 0x5A for ever gives its request number 1000 that byte; one that is "not yet" for ever waits. -/
theorem test_infinite_input :
    inputAnswer { answers := [], tail := .repeats (.value 0x5A#8) [] } 1000 = some (.value 0x5A#8) ∧
    inputAnswer { answers := [.value 1#8], tail := .repeats .notYet [.value 2#8] } 4 = some (.value 2#8) := by decide

theorem witness_ErrorsArePrecise :
    (boot [0x0F#8]).Good ∧ (boot [0x0F#8]).st ≠ .faulted ∧ ∃ t, step (boot [0x0F#8]) = .next t ∧ t.st = .faulted :=
  ⟨boot_good _ (by decide), by decide, _, rfl, rfl⟩

theorem witness_ErrorRecordWrittenOnce :
    (∃ t, step (boot [0x10#8]) = .next t ∧ t.st ≠ .faulted) ∧
    (∃ t, step { boot [] with st := .faulted } = .next t) := ⟨⟨_, rfl, by decide⟩, _, rfl⟩

/-- Good states of each kind: loaded with 50 bytes, waiting, halted, faulted. -/
theorem witness_StepKeepsGood :
    (boot fullImage).Good ∧ (∃ t, step (boot fullImage) = .next t) ∧
    State.Good { boot [0x05#8, 0xF0#8] with st := .execute, ir := 0x05#8, op1 := 0xF0#8 } ∧
    State.Good { boot [0x10#8] with st := .halted } ∧
    State.Good { boot [] with st := .faulted, err := { kind := .boundsError, pc := 0#8, opcode := none, detail := 0#8 } } :=
  ⟨boot_good _ (by decide), ⟨_, rfl⟩,
    ⟨rfl, rfl, by unfold State.imageFits; decide, .inr (.inr (.inr ⟨rfl, rfl, rfl, .a, rfl⟩)), by unfold State.errMatchesPhase; decide,
      by unfold State.faultLocated; decide,
      by unfold State.stackFaultFree; decide⟩,
    ⟨rfl, rfl, by unfold State.imageFits; decide, .inr (.inl rfl), by unfold State.errMatchesPhase; decide,
      by unfold State.faultLocated; decide,
      by unfold State.stackFaultFree; decide⟩,
    ⟨rfl, rfl, by unfold State.imageFits; decide, .inr (.inr (.inl rfl)), by unfold State.errMatchesPhase; decide,
      by unfold State.faultLocated; decide,
      by unfold State.stackFaultFree; decide⟩⟩

theorem witness_ResetFromAnyState : State.imageFits { boot fullImage with st := .faulted } := by
  unfold State.imageFits; decide

theorem witness_HostActsOnlyBeforeRun :
    loadProgram fullImage State.reset = some (boot fullImage) ∧ fullImage.length ≤ 50 ∧
    State.reset.st = .fetch ∧ State.reset.events = [] ∧
    (presetMemory 99#8 3#8 State.reset).isSome = true ∧ (99#8).toNat ≤ 99 ∧ ({ boot [] with st := .halted } : State).st ≠ .fetch := by
  decide

/-- What the loader and the host refuse: an oversized image, a cell that does not exist. -/
theorem test_host_refused :
    loadProgram (List.replicate 51 0#8) State.reset = none ∧ presetMemory 100#8 3#8 State.reset = none ∧
    supplyInput { answers := [], tail := .ends } { boot [] with st := .halted } = none := by decide

end Sys2Proof.Tests
end

section
/-! PROOFS of the scope family (00_scope.md): what an instruction and a step can write to the error record, and that an
`INPUT` without end never lets READ_IO run out. -/

namespace Sys2Proof.Machine

/-! ### A source that does not end -/

/-- A source that does not end answers every request. -/
theorem inputAnswer_endless (source : InputSource) (h : source.tail ≠ .ends) (k : Nat) :
    ∃ answer, inputAnswer source k = some answer :=
  Option.ne_none_iff_exists'.1 fun hnone => h ((inputAnswer_eq_none source k).1 hnone).1

/-- READ_IO on an endless source (R121, R158): the answer is a value and the instruction completes, or it is "not yet"
and the machine waits. -/
theorem exec_readIo_endless (rd : Reg) (s : State) (h : s.input.tail ≠ .ends) :
    (∃ v, exec (.readIo rd) s = complete (.readIo rd) (writeReg rd v { s with inputPos := s.inputPos + 1 })) ∨
      exec (.readIo rd) s = .next { s with inputPos := s.inputPos + 1, st := .execute } := by
  obtain ⟨answer, ha⟩ := inputAnswer_endless s.input h s.inputPos
  cases answer with
  | value v => exact .inl ⟨v, execReadIo_value rd v s ha⟩
  | notYet => exact .inr (execReadIo_notYet rd s ha)

/-! ### What the error record can become -/

@[simp] theorem unspecifyAll_err (s : State) : (unspecifyAll s).err = s.err := rfl

@[simp] theorem withLatches_err (s : State) (iaddr ir op1 op2 : Byte) (st : Phase) :
    (withLatches s iaddr ir op1 op2 st).err = s.err := rfl
@[simp] theorem withLatches_input (s : State) (iaddr ir op1 op2 : Byte) (st : Phase) :
    (withLatches s iaddr ir op1 op2 st).input = s.input := rfl

/-- The error record after an instruction: as before, or one of the errors an instruction can raise; InputUnavailable
only from a source that ends (R172, R174, R175). -/
theorem ExecOutcome.err_cases {i : Instr} {s t : State} (h : ExecOutcome i s t) :
    t.err = s.err ∨ t.err.kind = .boundsError ∨ t.err.kind = .stackOverflow ∨
      (t.err.kind = .inputUnavailable ∧ s.input.tail = .ends) := by
  cases h with
  | adder => exact .inl rfl
  | register => exact .inl rfl
  | store => exact .inl rfl
  | taken => exact .inl rfl
  | notTaken => exact .inl rfl
  | halt => exact .inl rfl
  | waiting => exact .inl rfl
  | error trap hi =>
    rcases hi with ⟨_, _, _, rfl, _⟩ | ⟨_, _, rfl, hends, _⟩
    · exact .inr (.inl (by simp))
    · exact .inr (.inr (.inr ⟨by simp, hends⟩))
  | stackFault => exact .inr (.inr (.inl (by simp)))

/-- The error record after a step: as before, or one of the errors a step can raise; InputUnavailable only from a
source that ends (R171, R172, R174, R175). -/
theorem step_err_cases (s t : State) (h : step s = .next t) :
    t.err = s.err ∨ t.err.kind = .decodeError ∨ t.err.kind = .boundsError ∨ t.err.kind = .stackOverflow ∨
      (t.err.kind = .inputUnavailable ∧ s.input.tail = .ends) := by
  cases step_cases s t h with
  | terminal => exact .inl rfl
  | error opcode trap ir op1 op2 st hrun hkind =>
    rcases hkind with hdecode | hbounds
    · exact .inr (.inl hdecode)
    · exact .inr (.inr (.inl hbounds))
  | exec i ir op1 op2 st _ hrun hm hr hf hexec =>
    have hrecord := hexec.err_cases
    simp only [withLatches_err, withLatches_input] at hrecord
    exact hrecord.imp_right .inr

/-- A step records InputUnavailable anew only from a source that ends. -/
theorem step_inputUnavailable (s t : State) (h : step s = .next t) (ht : t.err.kind = .inputUnavailable) :
    s.err.kind = .inputUnavailable ∨ s.input.tail = .ends := by
  rcases step_err_cases s t h with hsame | hk | hk | hk | ⟨_, hends⟩
  · exact .inl (hsame ▸ ht)
  · simp [ht] at hk
  · simp [ht] at hk
  · simp [ht] at hk
  · exact .inr hends

/-- Outside FAULTED a good state has no error on record (R23). -/
theorem State.Good.noError {s : State} (hgood : s.Good) (h : s.st ≠ .faulted) : s.err.kind = .noError :=
  Decidable.of_not_not fun hk => h (hgood.errMatchesPhase.2 hk)

/-- Settles O59: the source's next answer decides between completion and waiting, and the only step that records
InputUnavailable is one on a source that ends. -/
theorem infiniteInputNeverUnavailable : Obligations.InfiniteInputNeverUnavailable := by
  unfold Obligations.InfiniteInputNeverUnavailable
  refine ⟨fun rd s hendless => ?_, fun s t hgood hrun hendless hstep hk => ?_⟩
  · rcases exec_readIo_endless rd s hendless with ⟨v, hdone⟩ | hwait
    · exact ⟨_, hdone, rfl, rfl, .inl ⟨rfl, rfl⟩⟩
    · exact ⟨_, hwait, rfl, rfl, .inr ⟨rfl, rfl⟩⟩
  · rcases step_inputUnavailable s t hstep hk with hbefore | hends
    · simp [hgood.noError hrun] at hbefore
    · exact hendless hends

end Sys2Proof.Machine
end

section
/-! PROOFS of the state family (10_state.md): what an instruction and a step leave of each piece of the state, the
invariant of `State.Good`, the `pc` commit, and that V and N are read by nothing. -/

namespace Sys2Proof.Machine

/-! ### What an instruction leaves of the state -/

@[simp] theorem withLatches_pc (s : State) (iaddr ir op1 op2 : Byte) (st : Phase) :
    (withLatches s iaddr ir op1 op2 st).pc = s.pc := rfl
@[simp] theorem withLatches_flags (s : State) (iaddr ir op1 op2 : Byte) (st : Phase) :
    (withLatches s iaddr ir op1 op2 st).flags = s.flags := rfl
@[simp] theorem withLatches_stk (s : State) (iaddr ir op1 op2 : Byte) (st : Phase) :
    (withLatches s iaddr ir op1 op2 st).stk = s.stk := rfl
@[simp] theorem withLatches_mem (s : State) (iaddr ir op1 op2 : Byte) (st : Phase) :
    (withLatches s iaddr ir op1 op2 st).mem = s.mem := rfl
@[simp] theorem withLatches_prog (s : State) (iaddr ir op1 op2 : Byte) (st : Phase) :
    (withLatches s iaddr ir op1 op2 st).prog = s.prog := rfl
@[simp] theorem withLatches_iaddr (s : State) (iaddr ir op1 op2 : Byte) (st : Phase) :
    (withLatches s iaddr ir op1 op2 st).iaddr = iaddr := rfl

@[simp] theorem unspecifyAll_st (s : State) : (unspecifyAll s).st = s.st := rfl
@[simp] theorem unspecifyAll_prog (s : State) : (unspecifyAll s).prog = s.prog := rfl
@[simp] theorem unspecifyAll_input (s : State) : (unspecifyAll s).input = s.input := rfl

@[simp] theorem unspecifyAll_mem (s : State) : (unspecifyAll s).mem = freeMemory (s.freeCtr + 11) := by
  rw [unspecifyAll, forgetLatches_mem]

theorem unspecifyAll_memoryWf (s : State) : (unspecifyAll s).memoryWf := by
  unfold State.memoryWf
  rw [unspecifyAll_mem]
  exact freeMemory_wf _

/-- An empty stack has room for the two save sets of SUB and ADDC (10_state.md R26). -/
theorem State.stackEmpty.room {s : State} (h : s.stackEmpty) : s.stk.length + 10 ≤ Config.stackDepth := by
  have hlen : s.stk.length = 0 := congrArg List.length h
  rw [hlen]
  decide

/-- No outcome of an instruction writes the image or the input sequence, a stack fault included (R31). -/
theorem ExecOutcome.image_and_input {i : Instr} {s t : State} (h : ExecOutcome i s t) :
    t.prog = s.prog ∧ t.input = s.input := by
  cases h with
  | adder | register | store | taken | notTaken | halt | waiting | error => exact ⟨rfl, rfl⟩
  | stackFault => exact ⟨unspecifyAll_prog _, unspecifyAll_input _⟩

/-- Every outcome keeps the canonical form of data memory; after a stack fault memory is a fresh canonical one. -/
theorem ExecOutcome.memoryWf {i : Instr} {s t : State} (h : ExecOutcome i s t) (hmem : s.memoryWf) : t.memoryWf := by
  cases h with
  | adder => exact memInsert_wf _ _ _ scratch_exists hmem
  | store r addr hi haddr => exact memInsert_wf _ _ _ haddr hmem
  | stackFault => exact unspecifyAll_memoryWf _
  | register | taken | notTaken | halt | waiting | error => exact hmem

/-- With room for the adder's save sets an instruction leaves the stack as it found it (R26). -/
theorem ExecOutcome.stk_same {i : Instr} {s t : State} (h : ExecOutcome i s t)
    (hroom : s.stk.length + 10 ≤ Config.stackDepth) : t.stk = s.stk := by
  cases h with
  | stackFault hfull => omega
  | adder | register | store | taken | notTaken | halt | waiting | error => rfl

/-- The error record is written only together with the phase FAULTED (R23). -/
theorem ExecOutcome.err_same_or_faulted {i : Instr} {s t : State} (h : ExecOutcome i s t) :
    t.err = s.err ∨ t.st = .faulted := by
  cases h with
  | error | stackFault => exact .inr rfl
  | adder | register | store | taken | notTaken | halt | waiting => exact .inl rfl

/-- Only the three adder instructions write flags (R18). -/
theorem ExecOutcome.flags_same {i : Instr} {s t : State} (h : ExecOutcome i s t)
    (hadd : mnemonicOfInstr i ≠ .add) (hsub : mnemonicOfInstr i ≠ .sub) (haddc : mnemonicOfInstr i ≠ .addc) :
    t.flags = s.flags := by
  have not_adder (rd rs : Reg) : ¬ (i = .add rd rs ∨ i = .sub rd rs ∨ i = .addc rd rs) := by
    rintro (rfl | rfl | rfl)
    · exact hadd rfl
    · exact hsub rfl
    · exact haddc rfl
  cases h with
  | adder rd rs _ _ _ hi => exact absurd hi (not_adder rd rs)
  | stackFault _ hi =>
    obtain ⟨rd, rs, hi⟩ := hi
    exact absurd hi (not_adder rd rs)
  | register | store | taken | notTaken | halt | waiting | error => rfl

/-- How an instruction ends when the stack has room: completed with the error record kept, waiting for input, or with
a precise error taken (R87, R90, R177). -/
theorem ExecOutcome.end_cases {i : Instr} {s t : State} (h : ExecOutcome i s t)
    (hroom : s.stk.length + 10 ≤ Config.stackDepth) :
    ((t.st = .fetch ∨ t.st = .halted) ∧ t.err = s.err) ∨
    (∃ rd, i = .readIo rd ∧ t = { s with inputPos := s.inputPos + 1, st := .execute }) ∨
    ∃ trap, trap.kind ≠ .noError ∧ isStackFault trap.kind = false ∧ t = enterFaulted (some s.ir) trap s := by
  cases h with
  | adder | register | store | taken | notTaken => exact .inl ⟨.inl rfl, rfl⟩
  | halt => exact .inl ⟨.inr rfl, rfl⟩
  | waiting rd hi => exact .inr (.inl ⟨rd, hi, rfl⟩)
  | error trap hi =>
    rcases hi with ⟨_, _, _, rfl, _⟩ | ⟨_, _, rfl, _⟩
    · exact .inr (.inr ⟨_, by simp, rfl, rfl⟩)
    · exact .inr (.inr ⟨_, by simp, rfl, rfl⟩)
  | stackFault hfull => omega

/-! ### The invariant -/

theorem isStackFault_eq_false (k : ErrKind) :
    isStackFault k = false ↔ k ≠ .stackOverflow ∧ k ≠ .stackUnderflow := by
  cases k <;> simp [isStackFault]

/-- The errors of FETCH and DECODE are errors, and no stack faults (R171, R172). -/
theorem fetch_error_precise {k : ErrKind} (h : k = .decodeError ∨ k = .boundsError) :
    k ≠ .noError ∧ isStackFault k = false := by
  rcases h with rfl | rfl <;> exact ⟨by decide, rfl⟩

/-- READ_IO resolves only from a register selector (R66, R85). -/
theorem regOf_of_resolve_readIo (op1 op2 : Byte) (rd : Reg) (h : resolve .readIo op1 op2 = .ok (.readIo rd)) :
    ∃ r, regOf op1 = some r := by
  rcases resolveR_cases .readIo op1 with ⟨r, hsel, -⟩ | ⟨-, herr⟩
  · exact ⟨r, by rw [hsel, regOf_selectorOf]⟩
  · cases herr.symm.trans h

/-- In a good state that runs, the instruction a step works on is the one at `pc` (R14, R28). -/
theorem State.Good.instrAddress_eq {s : State} (hgood : s.Good) (hrun : s.st ≠ .halted ∧ s.st ≠ .faulted) :
    instrAddress s = s.pc := by
  rcases hgood.betweenSteps with hfetch | hhalted | hfaulted | ⟨hexecute, -, hlatch, -⟩
  · exact if_pos hfetch
  · exact absurd hhalted hrun.1
  · exact absurd hfaulted hrun.2
  · exact (if_neg (by simp [hexecute])).trans hlatch

/-- A state in FETCH or HALTED without an error on record is good when its storage is. -/
theorem good_of_completed {t : State} (hmem : t.memoryWf) (hstk : t.stackEmpty) (hfits : t.imageFits)
    (hst : t.st = .fetch ∨ t.st = .halted) (herr : t.err.kind = .noError) : t.Good where
  memoryWf := hmem
  stackEmpty := hstk
  imageFits := hfits
  betweenSteps := hst.imp_right .inl
  errMatchesPhase := by
    unfold State.errMatchesPhase
    rcases hst with h | h <;> simp [h, herr]
  faultLocated := fun hfaulted => by simp [hfaulted] at hst
  stackFaultFree := by simp [State.stackFaultFree, herr]

/-- A precise error taken at `pc` from a good state leaves a good state (R176, R177). -/
theorem State.Good.enterFaulted {s : State} (hgood : s.Good) (opcode : Option Byte) (trap : Trap)
    (ir op1 op2 : Byte) (st : Phase) (hkind : trap.kind ≠ .noError) (hprecise : isStackFault trap.kind = false) :
    (enterFaulted opcode trap (withLatches s s.pc ir op1 op2 st)).Good where
  memoryWf := hgood.memoryWf
  stackEmpty := hgood.stackEmpty
  imageFits := hgood.imageFits
  betweenSteps := .inr (.inr (.inl rfl))
  errMatchesPhase := iff_of_true rfl hkind
  faultLocated := fun _ => rfl
  stackFaultFree := (isStackFault_eq_false _).1 hprecise

/-- A good state that latches a READ_IO at `pc` and waits in EXECUTE is good (R80, R90). -/
theorem State.Good.waiting {s : State} (hgood : s.Good) (hrun : s.st ≠ .faulted) (ir op1 op2 : Byte) (st : Phase)
    (pos : Nat) (hir : ir = opcodeOf .readIo) (hsel : ∃ rd, regOf op1 = some rd) :
    State.Good { withLatches s s.pc ir op1 op2 st with inputPos := pos, st := .execute } where
  memoryWf := hgood.memoryWf
  stackEmpty := hgood.stackEmpty
  imageFits := hgood.imageFits
  betweenSteps := .inr (.inr (.inr ⟨rfl, hir, rfl, hsel⟩))
  errMatchesPhase := iff_of_false (fun hc => by cases hc) (not_not.2 (hgood.noError hrun))
  faultLocated := fun hc => by cases hc
  stackFaultFree := hgood.stackFaultFree

/-- An instruction executed at the `pc` of a good state leaves a good state, however it ends. -/
theorem State.Good.of_exec {s t : State} (hgood : s.Good) (hrun : s.st ≠ .faulted) {i : Instr} {ir op1 op2 : Byte}
    {st : Phase} (hm : mnemonicOf ir = some (mnemonicOfInstr i)) (hr : resolve (mnemonicOfInstr i) op1 op2 = .ok i)
    (ho : ExecOutcome i (withLatches s s.pc ir op1 op2 st) t) : t.Good := by
  have hroom : (withLatches s s.pc ir op1 op2 st).stk.length + 10 ≤ Config.stackDepth := hgood.stackEmpty.room
  rcases ho.end_cases hroom with ⟨hst, herr⟩ | ⟨rd, rfl, rfl⟩ | ⟨trap, hkind, hprecise, rfl⟩
  · refine good_of_completed (ho.memoryWf hgood.memoryWf) ((ho.stk_same hroom).trans hgood.stackEmpty) ?_ hst ?_
    · unfold State.imageFits
      rw [ho.image_and_input.1]
      exact hgood.imageFits
    · rw [herr]
      exact hgood.noError hrun
  · exact hgood.waiting hrun ir op1 op2 st _ (opcodeOf_of_mnemonicOf ir _ hm) (regOf_of_resolve_readIo op1 op2 rd hr)
  · exact hgood.enterFaulted _ trap ir op1 op2 st hkind hprecise

/-- Settles O55: a terminal state stays; an error of FETCH or DECODE is precise and located at `pc`; an executed
instruction completes, waits or takes a precise error, since an empty stack rules out a stack fault. -/
theorem stepKeepsGood : Obligations.StepKeepsGood := by
  unfold Obligations.StepKeepsGood
  intro s t hgood hstep
  cases step_cases s t hstep with
  | terminal => exact hgood
  | error opcode trap ir op1 op2 st hrun hkind =>
    rw [hgood.instrAddress_eq hrun]
    obtain ⟨hne, hprecise⟩ := fetch_error_precise hkind
    exact hgood.enterFaulted opcode trap ir op1 op2 st hne hprecise
  | exec i ir op1 op2 st _ hrun hm hr hf ho =>
    rw [hgood.instrAddress_eq hrun] at ho
    exact hgood.of_exec hrun.2 hm hr ho

/-- Settles O54: a start state is in FETCH with no error and an empty stack, whatever the legal memory and image. -/
theorem startIsGood : Obligations.StartIsGood := by
  unfold Obligations.StartIsGood
  refine ⟨good_of_completed reset_memory_wf rfl (Nat.zero_le _) (.inl rfl) rfl, ?_⟩
  rintro regs memInit prog input ⟨hmem, himage⟩
  have hfits : prog.length ≤ Config.imageMax := of_decide_eq_true himage
  exact good_of_completed hmem rfl hfits (.inl rfl) rfl

/-! ### The `pc` commit -/

/-- Where an instruction that ends in FETCH leaves `pc`: past its own bytes, or at a taken branch's target (R14). -/
theorem ExecOutcome.pc_cases {i : Instr} {s t : State} (h : ExecOutcome i s t) (hst : t.st = .fetch) :
    t.pc = s.iaddr + BitVec.ofNat 8 (lengthOf (mnemonicOfInstr i)) ∨
    (i = .branchIfZero t.pc ∧ s.flags.z = true ∨ i = .branchIfCarry t.pc ∧ s.flags.c = true) := by
  cases h with
  | adder | register => exact .inl rfl
  | store r addr hi => exact .inl (by rw [hi]; rfl)
  | taken target hi => exact .inr hi
  | notTaken target hi => rcases hi with ⟨rfl, -⟩ | ⟨rfl, -⟩ <;> exact .inl rfl
  | halt | waiting | error | stackFault => cases hst

/-- From FETCH with an opcode byte at `pc`, a step is DECODE and EXECUTE on the latched byte (R82, R93). -/
theorem step_fetch_read (s : State) (op : Byte) (hst : s.st = .fetch) (hop : s.prog[s.pc.toNat]? = some op) :
    step s = executePhase (decodePhase { s with iaddr := s.pc, ir := op, st := .decode }) := by
  simp only [step, hst, fetchPhase, progRead, hop, afterFetch]

theorem lengthOf_of_ne_halt (m : Mnemonic) (h : m ≠ .halt) : lengthOf m = 2 ∨ lengthOf m = 3 := by
  cases m with
  | halt => exact absurd rfl h
  | inc | readIo | shl | shr | complement | branchIfZero | branchIfCarry => exact .inl rfl
  | add | sub | addc | and | or | xor | loadDirect | store => exact .inr rfl

theorem lengthOf_le_three (m : Mnemonic) : lengthOf m ≤ 3 := by
  cases m <;> decide

/-- An instruction of two bytes reads no second operand (R60, R61). -/
theorem resolve_two_bytes (m : Mnemonic) (h : lengthOf m = 2) (op1 x y : Byte) : resolve m op1 x = resolve m op1 y := by
  cases m with
  | inc | readIo | shl | shr | complement | branchIfZero | branchIfCarry => rfl
  | add | sub | addc | and | or | xor | loadDirect | store | halt => cases h

/-- The operand bytes latched at the instruction's address are those the decoder reads after the opcode (R61, R84). -/
theorem decodeOperands_of_fetchOperands (m : Mnemonic) (s u : State) (bytes : List Byte) (i : Instr) (hm : m ≠ .halt)
    (hbytes : s.prog.drop s.iaddr.toNat = s.ir :: bytes) (hfetch : fetchOperands (lengthOf m) s = .ok u)
    (hresolve : resolve m u.op1 u.op2 = .ok i) : ∃ rest, decodeOperands m bytes = .instr i rest := by
  have hget (k : Nat) : s.prog[s.iaddr.toNat + k]? = (s.ir :: bytes)[k]? := by rw [← hbytes, List.getElem?_drop]
  rcases lengthOf_of_ne_halt m hm with hlen | hlen
  · cases bytes with
    | nil => simp [fetchOperands, progRead, hlen, hget] at hfetch
    | cons b1 rest =>
      obtain rfl : { s with op1 := b1 } = u := by simpa [fetchOperands, progRead, hlen, hget] using hfetch
      rw [resolve_two_bytes m hlen _ _ 0#8] at hresolve
      exact ⟨rest, by simp only [decodeOperands, hlen, decodedOf, hresolve]⟩
  · match bytes with
    | [] => simp [fetchOperands, progRead, hlen, hget] at hfetch
    | [b1] => simp [fetchOperands, progRead, hlen, hget] at hfetch
    | b1 :: b2 :: rest =>
      obtain rfl : { s with op1 := b1, op2 := b2 } = u := by
        simpa [fetchOperands, progRead, hlen, hget] using hfetch
      exact ⟨rest, by simp only [decodeOperands, hlen, decodedOf, hresolve]⟩

/-- What DECODE hands to EXECUTE is what the decoder reads from the image at the instruction's address (R83 to R86). -/
theorem decode_of_decodePhase (s u : State) (i : Instr) (bytes : List Byte)
    (hbytes : s.prog.drop s.iaddr.toNat = s.ir :: bytes) (h : decodePhase s = .ready i u) :
    ∃ rest, decode (s.ir :: bytes) = .instr i rest := by
  unfold decodePhase at h
  split at h
  · cases h
  · next hm =>
    cases h
    exact ⟨bytes, by simp only [decode, hm]; rfl⟩
  · next m hne hm =>
    split at h
    · cases h
    · next v hfetch =>
      unfold resolvePhase at h
      split at h
      · cases h
      · next j hresolve =>
        cases h
        simp only [decode, hm]
        exact decodeOperands_of_fetchOperands m s v bytes i hne hbytes hfetch hresolve

/-- A step from FETCH enters FAULTED or runs the instruction the decoder reads at `pc` (R82 to R87, R93). -/
theorem step_fetch_cases (s t : State) (hst : s.st = .fetch) (hstep : step s = .next t) :
    t.st = .faulted ∨ ∃ i rest ir op1 op2 st, decode (s.prog.drop s.pc.toNat) = .instr i rest ∧
      ExecOutcome i (withLatches s s.pc ir op1 op2 st) t := by
  cases hop : s.prog[s.pc.toNat]? with
  | none =>
    cases step_cases s t hstep with
    | terminal hend => simp [hst] at hend
    | error => exact .inl rfl
    | exec _ _ _ _ _ _ _ _ _ hread => simp [hst, hop] at hread
  | some op =>
    rw [step_fetch_read s op hst hop] at hstep
    have hbytes : s.prog.drop s.pc.toNat = op :: s.prog.drop (s.pc.toNat + 1) := by
      obtain ⟨hlt, rfl⟩ := List.getElem?_eq_some_iff.1 hop
      exact List.drop_eq_getElem_cons hlt
    have hcases := decodePhase_cases { s with iaddr := s.pc, ir := op, st := .decode }
    cases hphase : decodePhase { s with iaddr := s.pc, ir := op, st := .decode } with
    | raised u =>
      rw [hphase] at hstep hcases
      cases hstep
      cases hcases
      exact .inl rfl
    | ready i u =>
      rw [hphase] at hstep hcases
      obtain ⟨rest, hdecode⟩ := decode_of_decodePhase _ u i _ hbytes hphase
      rw [← hbytes] at hdecode
      have ho := exec_next i u t hstep
      cases hcases with
      | halt => exact .inr ⟨_, rest, op, s.op1, s.op2, .decode, hdecode, ho⟩
      | ready _ op1 op2 => exact .inr ⟨i, rest, op, op1, op2, .execute, hdecode, ho⟩

/-- Bytes that decode are not past the end of the image. -/
theorem lt_length_of_decode_drop (prog rest : List Byte) (k : Nat) (i : Instr)
    (h : decode (prog.drop k) = .instr i rest) : k < prog.length := by
  by_contra hk
  rw [List.drop_eq_nil_of_le (Nat.not_lt.1 hk)] at h
  cases h

/-- The sequential `pc` of an instruction inside a legal image does not wrap, and is at most 52 (R15). -/
theorem sequential_pc_toNat (pc : Byte) (m : Mnemonic) (h : pc.toNat < Config.imageMax) :
    (pc + BitVec.ofNat 8 (lengthOf m)).toNat = pc.toNat + lengthOf m ∧ pc.toNat + lengthOf m ≤ 52 := by
  have hlen := lengthOf_le_three m
  have hmax : Config.imageMax = 50 := rfl
  rw [BitVec.toNat_add, BitVec.toNat_ofNat]
  omega

/-- Settles O14: the step runs the instruction decoded at `pc`, whose outcome commits `pc` past its bytes or to the
target; inside an image of at most 50 bytes the sum does not wrap. -/
theorem pcCommit : Obligations.PcCommit := by
  unfold Obligations.PcCommit
  intro s t hgood hst hstep hfetch
  rcases step_fetch_cases s t hst hstep with hfaulted | ⟨i, rest, ir, op1, op2, st, hdecode, ho⟩
  · simp [hfetch] at hfaulted
  rcases ho.pc_cases hfetch with hnext | htaken
  · have hpc : s.pc.toNat < Config.imageMax :=
      Nat.lt_of_lt_of_le (lt_length_of_decode_drop _ _ _ _ hdecode) hgood.imageFits
    obtain ⟨hsum, hmax⟩ := sequential_pc_toNat s.pc (mnemonicOfInstr i) hpc
    rw [withLatches_iaddr] at hnext
    rw [← hnext] at hsum
    exact .inl ⟨i, rest, hdecode, hsum, hsum ▸ hmax⟩
  · refine .inr ⟨t.pc, rest, rfl, ?_⟩
    rcases htaken with ⟨hi, hz⟩ | ⟨hi, hc⟩
    · exact .inl ⟨hi ▸ hdecode, hz⟩
    · exact .inr ⟨hi ▸ hdecode, hc⟩

/-! ### Who writes flags and registers -/

/-- Settles O39: with room on the stack each adder instruction completes with the flags of its `Add8` call, and no
other outcome writes the flags. -/
theorem flagWriters : Obligations.FlagWriters := by
  unfold Obligations.FlagWriters
  refine ⟨fun rd rs s t hroom => ⟨fun h => ?_, fun h => ?_, fun h => ?_⟩,
    fun i s t hadd hsub haddc h => (exec_next i s t h).flags_same hadd hsub haddc⟩
  · cases (execAdd_fits rd rs s (by omega)).symm.trans h
    rfl
  · cases (execSub_fits rd rs s hroom).symm.trans h
    rfl
  · cases (execAddc_fits rd rs s hroom).symm.trans h
    rfl

/-- A register that a write changed is the one written (R10, R12). -/
theorem eq_of_getReg_setReg_ne {regs : RegFile} {rd x : Reg} {v : Byte}
    (h : getReg (setReg regs rd v) x ≠ getReg regs x) : x = rd := by
  by_contra hne
  exact h (getReg_setReg_other regs rd x v hne)

/-- Settles O42: the outcomes that write registers write one, the instruction's destination; the stack fault, which
leaves them unspecified, needs a stack that is not empty. -/
theorem registerWriters : Obligations.RegisterWriters := by
  unfold Obligations.RegisterWriters
  intro i s t x hempty h hne
  have hroom := hempty.room
  cases exec_next i s t h with
  | adder rd rs _ _ _ hi =>
    obtain rfl := eq_of_getReg_setReg_ne hne
    exact .inl ⟨rs, hi.imp_right fun h => h.imp_right .inl⟩
  | register rd v pos hi =>
    obtain rfl := eq_of_getReg_setReg_ne hne
    rcases hi with ⟨rs, hi⟩ | hi
    · exact .inl ⟨rs, .inr (.inr (.inr hi))⟩
    · exact .inr hi
  | stackFault hfull => omega
  | store | taken | notTaken | halt | waiting | error => exact absurd rfl hne

/-! ### What a step leaves constant -/

/-- Settles O43: whatever a step does, it is built from operations that leave image and input alone. -/
theorem imageAndInputConstant : Obligations.ImageAndInputConstant := by
  unfold Obligations.ImageAndInputConstant
  intro s t hstep
  cases step_cases s t hstep with
  | terminal | error => exact ⟨rfl, rfl⟩
  | exec i ir op1 op2 st _ hrun hm hr hf ho => exact ho.image_and_input

/-- A step writes the error record only when it ends in FAULTED (R23). -/
theorem step_err_same_or_faulted (s t : State) (hstep : step s = .next t) : t.err = s.err ∨ t.st = .faulted := by
  cases step_cases s t hstep with
  | terminal => exact .inl rfl
  | error => exact .inr rfl
  | exec i ir op1 op2 st _ hrun hm hr hf ho => exact ho.err_same_or_faulted

/-- FAULTED is terminal (R88). -/
theorem step_faulted (s : State) (h : s.st = .faulted) : step s = .next s := by
  simp only [step, h]

/-- Settles O52: the record changes only on entry to FAULTED, and FAULTED is terminal. -/
theorem errorRecordWrittenOnce : Obligations.ErrorRecordWrittenOnce := by
  unfold Obligations.ErrorRecordWrittenOnce
  intro s t hstep
  refine ⟨(step_err_same_or_faulted s t hstep).resolve_right, fun hst => ?_⟩
  rw [step_faulted s hst] at hstep
  cases hstep
  rfl

/-! ### V and N are read by nothing -/

/-- A state without what V and N can reach: the two flags and the snapshots in the events (R19). -/
def withoutVN (s : State) : State := { s with flags := { s.flags with v := false, n := false }, events := [] }

/-- A branch reads only its condition. -/
theorem branchIf_withoutVN (i : Instr) (taken : Bool) (target : Byte) (s : State) :
    ∃ t u, branchIf i taken target s = .next t ∧ branchIf i taken target (withoutVN s) = .next u ∧
      withoutVN u = withoutVN t := by
  cases taken with
  | true => exact ⟨_, _, rfl, rfl, rfl⟩
  | false => exact ⟨_, _, rfl, rfl, rfl⟩

/-- What an instruction does outside V, N and the events, it does alike on a state without them: no operand, branch
condition, stack check or input request reads them. -/
theorem exec_withoutVN (i : Instr) (s : State) :
    ∃ t u, exec i s = .next t ∧ exec i (withoutVN s) = .next u ∧ withoutVN u = withoutVN t := by
  cases i with
  | add rd rs =>
    by_cases h : s.stk.length + 5 ≤ Config.stackDepth
    · exact ⟨_, _, execAdd_fits rd rs s h, execAdd_fits rd rs (withoutVN s) h, rfl⟩
    · have h : Config.stackDepth < s.stk.length + 5 := by omega
      exact ⟨_, _, execAdd_overflows rd rs s h, execAdd_overflows rd rs (withoutVN s) h, rfl⟩
  | sub rd rs =>
    by_cases h : s.stk.length + 10 ≤ Config.stackDepth
    · exact ⟨_, _, execSub_fits rd rs s h, execSub_fits rd rs (withoutVN s) h, rfl⟩
    · have h : Config.stackDepth < s.stk.length + 10 := by omega
      exact ⟨_, _, execSub_overflows rd rs s h, execSub_overflows rd rs (withoutVN s) h, rfl⟩
  | addc rd rs =>
    by_cases h : s.stk.length + 10 ≤ Config.stackDepth
    · exact ⟨_, _, execAddc_fits rd rs s h, execAddc_fits rd rs (withoutVN s) h, rfl⟩
    · have h : Config.stackDepth < s.stk.length + 10 := by omega
      exact ⟨_, _, execAddc_overflows rd rs s h, execAddc_overflows rd rs (withoutVN s) h, rfl⟩
  | loadDirect r addr =>
    by_cases h : addr.toNat < Config.memSize
    · exact ⟨_, _, execLoadDirect_reads r addr s h, execLoadDirect_reads r addr (withoutVN s) h, rfl⟩
    · have h : Config.memSize ≤ addr.toNat := by omega
      exact ⟨_, _, execLoadDirect_outside r addr s h, execLoadDirect_outside r addr (withoutVN s) h, rfl⟩
  | store r addr =>
    by_cases h : addr.toNat < Config.memSize
    · exact ⟨_, _, execStore_writes r addr s h, execStore_writes r addr (withoutVN s) h, rfl⟩
    · have h : Config.memSize ≤ addr.toNat := by omega
      exact ⟨_, _, execStore_outside r addr s h, execStore_outside r addr (withoutVN s) h, rfl⟩
  | readIo rd =>
    cases h : inputAnswer s.input s.inputPos with
    | none => exact ⟨_, _, execReadIo_exhausted rd s h, execReadIo_exhausted rd (withoutVN s) h, rfl⟩
    | some answer =>
      cases answer with
      | value v => exact ⟨_, _, execReadIo_value rd v s h, execReadIo_value rd v (withoutVN s) h, rfl⟩
      | notYet => exact ⟨_, _, execReadIo_notYet rd s h, execReadIo_notYet rd (withoutVN s) h, rfl⟩
  | branchIfZero target => exact branchIf_withoutVN _ s.flags.z target s
  | branchIfCarry target => exact branchIf_withoutVN _ s.flags.c target s
  | inc | shl | shr | and | or | xor | complement | halt => exact ⟨_, _, rfl, rfl, rfl⟩

/-- Two states alike outside V, N and the events go to states alike outside them. -/
theorem exec_congr_withoutVN (i : Instr) (s s' t u : State) (hs : withoutVN s' = withoutVN s)
    (ht : exec i s = .next t) (hu : exec i s' = .next u) : withoutVN u = withoutVN t := by
  obtain ⟨t₁, v₁, ht₁, hv₁, e₁⟩ := exec_withoutVN i s
  obtain ⟨u₁, v₂, hu₁, hv₂, e₂⟩ := exec_withoutVN i s'
  cases ht.symm.trans ht₁
  cases hu.symm.trans hu₁
  rw [hs] at hv₂
  cases hv₁.symm.trans hv₂
  exact e₂.symm.trans e₁

/-- Settles O40: states that differ in V and N are alike without them, and so are the next states. -/
theorem overflowAndNegativeNeverRead : Obligations.OverflowAndNegativeNeverRead := by
  unfold Obligations.OverflowAndNegativeNeverRead
  intro i s t u v n ht hu
  have h : withoutVN u = withoutVN t := exec_congr_withoutVN i s _ t u (by rfl) ht hu
  exact ⟨congrArg (·.regs) h, congrArg (·.pc) h, congrArg (·.st) h, congrArg (·.err) h, congrArg (·.stk) h,
    congrArg (·.mem) h, congrArg (·.flags.c) h, congrArg (·.flags.z) h, congrArg (·.inputPos) h⟩

/-! ### Stack operations and reset -/

/-- Settles O45: a push with room appends, and the pop of an appended byte takes it off again. -/
theorem pushAndPop : Obligations.PushAndPop := by
  unfold Obligations.PushAndPop
  intro v s
  exact ⟨fun hroom => ⟨_, push_fits v s hroom, rfl, pop_concat _ s.stk v rfl⟩,
    fun hfull => push_overflows v s (Nat.le_of_eq hfull.symm), pop_underflows s⟩

/-- Settles O53: read off `State.start` field by field; the memory of `State.reset` lists no cell. -/
theorem resetLeaves : Obligations.ResetLeaves := by
  unfold Obligations.ResetLeaves
  refine ⟨fun regs memInit prog input => ?_, fun a _ => ?_, rfl⟩
  · exact ⟨rfl, rfl, rfl, rfl, rfl, rfl, rfl, rfl, rfl, rfl, rfl⟩
  · exact memLookup_eq_default [] a (by simp)

end Sys2Proof.Machine
end

section
/-! PROOFS of the memory family (20_memory.md): the bounds of the two accesses, reading back what was written, which
instructions write memory, and what the host may do before a run. -/

namespace Sys2Proof.Machine

/-! ### Reads and writes of data memory -/

/-- The addresses of the 100 cells (R40). -/
theorem lt_memSize_iff (a : Nat) : a < Config.memSize ↔ a ≤ 99 := Nat.lt_succ_iff

theorem memRead_inside (addr : Byte) (s : State) (h : addr.toNat < Config.memSize) :
    memRead addr s = .ok (memLookup s.mem addr.toNat) := by
  rcases memRead_cases addr s with ⟨-, hread⟩ | ⟨hout, -⟩
  · exact hread
  · omega

theorem memRead_outside (addr : Byte) (s : State) (h : Config.memSize ≤ addr.toNat) :
    memRead addr s = .error { kind := .boundsError, detail := some addr } := by
  rcases memRead_cases addr s with ⟨hin, -⟩ | ⟨-, hraise⟩
  · omega
  · exact hraise

/-- A read depends on nothing but the cell it reads. -/
theorem memRead_congr (addr : Byte) (s t : State) (h : memLookup t.mem addr.toNat = memLookup s.mem addr.toNat) :
    memRead addr t = memRead addr s := by
  rcases Nat.lt_or_ge addr.toNat Config.memSize with hin | hout
  · rw [memRead_inside addr t hin, memRead_inside addr s hin, h]
  · rw [memRead_outside addr t hout, memRead_outside addr s hout]

theorem memWrite_inside (addr v : Byte) (s : State) (h : addr.toNat < Config.memSize) :
    memWrite addr v s = .ok { s with mem := memInsert s.mem addr.toNat v } := by
  rcases memWrite_cases addr v s with ⟨-, hwrite⟩ | ⟨hout, -⟩
  · exact hwrite
  · omega

theorem memWrite_outside (addr v : Byte) (s : State) (h : Config.memSize ≤ addr.toNat) :
    memWrite addr v s = .error { kind := .boundsError, detail := some addr } := by
  rcases memWrite_cases addr v s with ⟨hin, -⟩ | ⟨-, hraise⟩
  · omega
  · exact hraise

/-- A write succeeds only at an existing cell, and is then the insertion into the memory (R43). -/
theorem memWrite_ok (addr v : Byte) (s t : State) (h : memWrite addr v s = .ok t) :
    addr.toNat < Config.memSize ∧ t = { s with mem := memInsert s.mem addr.toNat v } := by
  rcases memWrite_cases addr v s with ⟨hin, hwrite⟩ | ⟨-, hraise⟩
  · cases hwrite.symm.trans h
    exact ⟨hin, rfl⟩
  · cases hraise.symm.trans h

/-- Settles O49: both accesses check the address against the 100 cells. -/
theorem memoryAccessBounds : Obligations.MemoryAccessBounds := by
  unfold Obligations.MemoryAccessBounds
  refine fun addr v s => ⟨fun hin => ?_, fun hout => ?_⟩
  · have hin := (lt_memSize_iff _).2 hin
    exact ⟨memRead_inside addr s hin, _, memWrite_inside addr v s hin, rfl⟩
  · exact ⟨memRead_outside addr s hout, memWrite_outside addr v s hout⟩

/-- Settles O50: a successful write is an insertion at an existing cell, which reads back there, keeps the canonical
form and is invisible at any other address. -/
theorem readReturnsLatestWrite : Obligations.ReadReturnsLatestWrite := by
  unfold Obligations.ReadReturnsLatestWrite
  intro addr other v s t hwf hwrite
  obtain ⟨hin, rfl⟩ := memWrite_ok addr v s t hwrite
  refine ⟨?_, memInsert_wf _ _ _ hin hwf, fun hne => memRead_congr other _ _ ?_⟩
  · rw [memRead_inside addr _ hin, memLookup_memInsert_same _ _ _ hwf]
  · exact memLookup_memInsert_other _ _ _ _ fun h => hne (BitVec.eq_of_toNat_eq h)

/-! ### Who writes data memory -/

/-- A cell that a write changed is the one written. -/
theorem eq_of_memLookup_memInsert_ne {m : Memory} {addr a : Nat} {v : Byte}
    (h : memLookup (memInsert m addr v) a ≠ memLookup m a) : a = addr := by
  by_contra hne
  exact h (memLookup_memInsert_other m addr a v hne)

/-- Settles O41: of the outcomes of an instruction only STORE and the adder's scratch write (R103) insert into the
memory; the stack fault, which leaves it unspecified, needs a stack that is not empty. -/
theorem memoryWriters : Obligations.MemoryWriters := by
  unfold Obligations.MemoryWriters
  intro i s t hempty h a hne
  have hroom := hempty.room
  cases exec_next i s t h with
  | adder rd rs _ _ _ hi => exact .inr ⟨eq_of_memLookup_memInsert_ne hne, rd, rs, hi⟩
  | store r addr hi hin =>
    obtain rfl := eq_of_memLookup_memInsert_ne hne
    exact .inl ⟨r, addr, hi, rfl, (lt_memSize_iff _).1 hin⟩
  | stackFault hfull => omega
  | register | taken | notTaken | halt | waiting | error => exact absurd rfl hne

/-! ### The host before a run -/

theorem beforeRun_iff (s : State) : beforeRun s = true ↔ s.st = .fetch ∧ s.events = [] := by
  simp [beforeRun]

/-- The loader takes an image exactly before the run and within `IMAGE_MAX` (R155). -/
theorem loadProgram_eq_some_iff (image : List Byte) (s t : State) :
    loadProgram image s = some t ↔
      (s.st = .fetch ∧ s.events = []) ∧ image.length ≤ Config.imageMax ∧ { s with prog := image } = t := by
  simp [loadProgram, beforeRun_iff, and_assoc]

/-- A preset is taken exactly before the run and at an existing cell (R41, R156). -/
theorem presetMemory_eq_some_iff (addr v : Byte) (s t : State) :
    presetMemory addr v s = some t ↔
      (s.st = .fetch ∧ s.events = []) ∧ addr.toNat ≤ 99 ∧ { s with mem := memInsert s.mem addr.toNat v } = t := by
  simp [presetMemory, beforeRun_iff, effectiveAddress, lt_memSize_iff, and_assoc]

/-- The input source is supplied exactly before the run (R157, R198). -/
theorem supplyInput_eq_some_iff (source : InputSource) (s t : State) :
    supplyInput source s = some t ↔
      (s.st = .fetch ∧ s.events = []) ∧ { s with input := source, inputPos := 0 } = t := by
  simp [supplyInput, beforeRun_iff]

/-- Settles O57: each act of the host is refused or taken as its `↔` above says; what a preset leaves in memory are
the laws of `memInsert`. -/
theorem hostActsOnlyBeforeRun : Obligations.HostActsOnlyBeforeRun := by
  unfold Obligations.HostActsOnlyBeforeRun
  refine ⟨fun image s t h => ?_, fun image s hst hev hlen => ?_, fun addr v s t h => ?_, fun addr v s hst hev hin => ?_,
    fun source s hst hev => ?_, fun image addr v source s hlate => ?_⟩
  · obtain ⟨⟨hst, hev⟩, hlen, ht⟩ := (loadProgram_eq_some_iff image s t).1 h
    exact ⟨hlen, ht.symm, hst, hev⟩
  · exact (loadProgram_eq_some_iff image s _).2 ⟨⟨hst, hev⟩, hlen, rfl⟩
  · obtain ⟨⟨hst, hev⟩, hin, rfl⟩ := (presetMemory_eq_some_iff addr v s t).1 h
    exact ⟨hin, hst, hev,
      fun hwf => ⟨memInsert_wf _ _ _ ((lt_memSize_iff _).2 hin) hwf, memLookup_memInsert_same _ _ _ hwf⟩,
      fun a hne => memLookup_memInsert_other _ _ a v hne⟩
  · exact (presetMemory_eq_some_iff addr v s _).2 ⟨⟨hst, hev⟩, hin, rfl⟩
  · exact (supplyInput_eq_some_iff source s _).2 ⟨⟨hst, hev⟩, rfl⟩
  · have hnot : ¬ (s.st = .fetch ∧ s.events = []) := fun ⟨hst, hev⟩ => hlate.elim (· hev) (· hst)
    refine ⟨?_, ?_, ?_⟩ <;> refine Option.eq_none_iff_forall_ne_some.2 fun t h => hnot ?_
    · exact ((loadProgram_eq_some_iff image s t).1 h).1
    · exact ((presetMemory_eq_some_iff addr v s t).1 h).1
    · exact ((supplyInput_eq_some_iff source s t).1 h).1

end Sys2Proof.Machine
end

section
/-! PROOFS of the encoding family (30_encoding.md): which bytes are selectors and opcodes, that decoding and encoding
are inverse to each other, and what a step does at an illegal opcode. -/

namespace Sys2Proof.Machine

/-! ### The two tables -/

/-- The bytes that name no register (R66). -/
theorem regOf_eq_none_iff (sel : Byte) : regOf sel = none ↔ sel.toNat < 0xF0 ∨ 0xF4 < sel.toNat := by
  unfold regOf
  split
  case h_6 =>
    simp only [imp_false] at *
    simp only [true_iff]
    omega
  all_goals
    simp only [reduceCtorEq, false_iff]
    omega

/-- The illegal opcode bytes (R71). -/
theorem mnemonicOf_eq_none_iff (op : Byte) : mnemonicOf op = none ↔ op = 0x0F#8 ∨ 0x10 < op.toNat := by
  have hgap : op = 0x0F#8 ↔ op.toNat = 0x0F := BitVec.toNat_inj.symm
  rw [hgap]
  unfold mnemonicOf
  split
  case h_17 =>
    simp only [imp_false] at *
    simp only [true_iff]
    omega
  all_goals
    simp only [reduceCtorEq, false_iff]
    omega

/-- An instruction's length read off its opcode byte (R60, R70, R93). -/
theorem lengthOf_eq_of_opcodeOf (m : Mnemonic) :
    lengthOf m =
      if opcodeOf m = 0x10#8 then 1
      else if (opcodeOf m).toNat ∈ [0x00, 0x01, 0x02, 0x04, 0x06, 0x09, 0x0A, 0x0B] then 3 else 2 := by
  cases m <;> rfl

/-- Settles O4: the five selectors by evaluation, the other bytes by the branches of `regOf`. -/
theorem registerSelectorTable : Obligations.RegisterSelectorTable :=
  ⟨rfl, rfl, rfl, rfl, rfl, regOf_eq_none_iff⟩

/-- Settles O5: a byte with a mnemonic is that mnemonic's opcode, so its length is the opcode's. -/
theorem opcodeTable : Obligations.OpcodeTable := by
  unfold Obligations.OpcodeTable
  refine ⟨mnemonicOf_opcodeOf, mnemonicOf_eq_none_iff, fun op m h => ?_⟩
  obtain rfl := opcodeOf_of_mnemonicOf op m h
  exact lengthOf_eq_of_opcodeOf m

/-! ### Decoding and encoding -/

theorem resolveR_eq_ok {make : Reg → Instr} {op1 : Byte} {i : Instr} (h : resolveR make op1 = .ok i) :
    ∃ rd, op1 = selectorOf rd ∧ i = make rd := by
  rcases resolveR_cases make op1 with ⟨rd, hsel, hok⟩ | ⟨-, herr⟩
  · cases hok.symm.trans h
    exact ⟨rd, hsel, rfl⟩
  · cases herr.symm.trans h

theorem resolveRR_eq_ok {make : Reg → Reg → Instr} {op1 op2 : Byte} {i : Instr}
    (h : resolveRR make op1 op2 = .ok i) :
    ∃ rd rs, op1 = selectorOf rd ∧ op2 = selectorOf rs ∧ i = make rd rs := by
  rcases resolveRR_cases make op1 op2 with ⟨rd, rs, hsel1, hsel2, hok⟩ | ⟨-, herr⟩ | ⟨-, -, herr⟩
  · cases hok.symm.trans h
    exact ⟨rd, rs, hsel1, hsel2, rfl⟩
  · cases herr.symm.trans h
  · cases herr.symm.trans h

/-- The operand bytes an instruction of `m` has in its encoding, out of the two that may be latched (R61, R62). -/
def operandBytes (m : Mnemonic) (op1 op2 : Byte) : List Byte := [op1, op2].take (lengthOf m - 1)

/-- What operand bytes resolve to is encoded as those bytes after the opcode: no bit of them is dropped (R62, R65). -/
theorem encode_of_resolve {m : Mnemonic} {op1 op2 : Byte} {i : Instr} (h : resolve m op1 op2 = .ok i) :
    encode i = opcodeOf m :: operandBytes m op1 op2 := by
  cases m with
  | add | sub | addc | and | or | xor =>
    obtain ⟨rd, rs, rfl, rfl, rfl⟩ := resolveRR_eq_ok h
    rfl
  | inc | readIo | shl | shr | complement | loadDirect | store =>
    obtain ⟨rd, rfl, rfl⟩ := resolveR_eq_ok h
    rfl
  | branchIfZero | branchIfCarry | halt =>
    cases h
    rfl

theorem decodedOf_eq_instr_iff (m : Mnemonic) (op1 op2 : Byte) (bytes rest : List Byte) (i : Instr) :
    decodedOf m op1 op2 bytes = .instr i rest ↔ resolve m op1 op2 = .ok i ∧ bytes = rest := by
  unfold decodedOf
  cases resolve m op1 op2 with
  | error sel => simp
  | ok j => simp

/-- The decoder answers an instruction exactly when the bytes begin with operand bytes that resolve to it, as many as
the instruction's length asks for (R60, R61, R84, R85). -/
theorem decodeOperands_eq_instr_iff (m : Mnemonic) (bytes rest : List Byte) (i : Instr) :
    decodeOperands m bytes = .instr i rest ↔
      ∃ op1 op2, resolve m op1 op2 = .ok i ∧ bytes = operandBytes m op1 op2 ++ rest := by
  by_cases hm : m = .halt
  · subst hm
    have hhalt : decodeOperands .halt bytes = decodedOf .halt 0#8 0#8 bytes := rfl
    rw [hhalt, decodedOf_eq_instr_iff]
    exact ⟨fun ⟨hr, hbytes⟩ => ⟨0#8, 0#8, hr, hbytes⟩, fun ⟨_, _, hr, hbytes⟩ => ⟨hr, hbytes⟩⟩
  rcases lengthOf_of_ne_halt m hm with hlen | hlen
  · match bytes with
    | [] => simp [decodeOperands, operandBytes, hlen]
    | b1 :: tail =>
      have hfirst (op2 : Byte) : resolve m b1 op2 = resolve m b1 0#8 := resolve_two_bytes m hlen b1 op2 0#8
      simp [decodeOperands, operandBytes, hlen, decodedOf_eq_instr_iff, hfirst]
  · match bytes with
    | [] => simp [decodeOperands, operandBytes, hlen]
    | [b1] => simp [decodeOperands, operandBytes, hlen]
    | b1 :: b2 :: tail =>
      simp [decodeOperands, operandBytes, hlen, decodedOf_eq_instr_iff]

/-- Decoding and encoding are inverse to each other: the bytes an instruction decodes from are its encoding, and
no other bytes are. -/
theorem decode_eq_instr_iff (bytes rest : List Byte) (i : Instr) :
    decode bytes = .instr i rest ↔ bytes = encode i ++ rest := by
  constructor
  · intro h
    unfold decode at h
    split at h
    · cases h
    · split at h
      · cases h
      · next op tail _ m hop =>
        obtain ⟨op1, op2, hr, rfl⟩ := (decodeOperands_eq_instr_iff m _ _ _).1 h
        rw [opcodeOf_of_mnemonicOf op m hop, encode_of_resolve hr, List.cons_append]
  · rintro rfl
    have hr := resolve_encode i 0#8 0#8
    rw [encode_of_resolve hr, List.cons_append, decode, mnemonicOf_opcodeOf]
    exact (decodeOperands_eq_instr_iff _ _ _ _).2 ⟨_, _, hr, rfl⟩

/-- Settles O1: the encoding's own operand bytes resolve to the instruction (`resolve_encode`). -/
theorem decodeEncodeRoundTrip : Obligations.DecodeEncodeRoundTrip :=
  fun i rest => (decode_eq_instr_iff _ rest i).2 rfl

/-- Settles O2: the opcode and operand bytes read are those of the encoding (`encode_of_resolve`). -/
theorem decodedBytesAreTheEncoding : Obligations.DecodedBytesAreTheEncoding :=
  fun bytes rest i => (decode_eq_instr_iff bytes rest i).1

/-- Settles O3: each word is the encoding of its instruction, with nothing after it. -/
theorem sampleWordsDecode : Obligations.SampleWordsDecode :=
  ⟨decodeEncodeRoundTrip (.add .a .b) [], decodeEncodeRoundTrip (.loadDirect .a 5#8) [],
    decodeEncodeRoundTrip (.store .c 30#8) [], decodeEncodeRoundTrip (.shl .e) [],
    decodeEncodeRoundTrip (.xor .d .d) [], decodeEncodeRoundTrip (.branchIfZero 27#8) [],
    decodeEncodeRoundTrip .halt []⟩

/-! ### Illegal opcodes -/

/-- A step that enters FAULTED from the state with no more than latches written takes that error and changes nothing
else (R177). -/
theorem stepRaises_of_enterFaulted {s : State} {kind : ErrKind} {opcode : Option Byte} {detail ir op1 op2 : Byte}
    {st : Phase} (h : step s =
      .next (enterFaulted opcode { kind := kind, detail := some detail } (withLatches s s.pc ir op1 op2 st))) :
    stepRaises kind opcode detail s :=
  ⟨_, h, ⟨rfl, rfl⟩, rfl, rfl, rfl, rfl, fun _ => rfl, rfl, rfl, rfl, rfl⟩

/-- DECODE at an opcode byte of the illegal set (R83). -/
theorem decodePhase_illegal (s : State) (h : mnemonicOf s.ir = none) :
    decodePhase s = .raised (enterFaulted (some s.ir) { kind := .decodeError, detail := some s.ir } s) := by
  simp only [decodePhase, h]
  rfl

/-- Settles O8: the byte has no mnemonic, so DECODE raises on the state with the byte and its address latched. -/
theorem illegalOpcodeRaises : Obligations.IllegalOpcodeRaises := by
  unfold Obligations.IllegalOpcodeRaises
  intro s op hst hop hillegal
  have hnone : mnemonicOf op = none := (mnemonicOf_eq_none_iff op).2 hillegal
  have hstep := step_fetch_read s op hst hop
  rw [decodePhase_illegal _ hnone] at hstep
  exact stepRaises_of_enterFaulted (op1 := s.op1) (op2 := s.op2) hstep

end Sys2Proof.Machine
end

section
/-! PROOFS of the instruction cycle family (40_instruction_cycle.md): what FETCH and DECODE do with the bytes at `pc`,
in which order they raise their errors, and how a step ends. -/

namespace Sys2Proof.Machine

/-! ### FETCH -/

/-- The state FETCH hands to DECODE: the address and the opcode byte latched (R82). -/
def fetched (op : Byte) (s : State) : State := { s with iaddr := s.pc, ir := op, st := .decode }

theorem fetchPhase_inside (s : State) (op : Byte) (hop : s.prog[s.pc.toNat]? = some op) :
    fetchPhase s = fetched op s := by
  simp only [fetchPhase, progRead, hop, fetched]

/-- From FETCH with `pc` at or beyond `L`, a step takes BoundsError with no opcode (R82). -/
theorem step_fetch_outside (s : State) (hst : s.st = .fetch) (h : s.prog.length ≤ s.pc.toNat) :
    step s = .next
      (enterFaulted none { kind := .boundsError, detail := some s.pc } (withLatches s s.pc s.ir s.op1 s.op2 s.st)) := by
  simp only [step, hst, fetchPhase, progRead, List.getElem?_eq_none h, BitVec.ofNat_toNat, BitVec.setWidth_eq]
  rfl

/-- Settles O7: the opcode read succeeds exactly inside the image, and outside it the step is the error entry. -/
theorem fetchReadsOpcodeOrRaises : Obligations.FetchReadsOpcodeOrRaises := by
  unfold Obligations.FetchReadsOpcodeOrRaises
  exact fun s hst => ⟨fetchPhase_inside s, fun h => stepRaises_of_enterFaulted (step_fetch_outside s hst h)⟩

/-! ### Terminal states and totality -/

/-- HALTED is terminal (R88). -/
theorem step_halted (s : State) (h : s.st = .halted) : step s = .next s := by
  simp only [step, h]

/-- Settles O10: each terminal state has its own branch of `step`. -/
theorem terminalStatesStay : Obligations.TerminalStatesStay := by
  unfold Obligations.TerminalStatesStay
  rintro s (hhalted | hfaulted)
  · exact step_halted s hhalted
  · exact step_faulted s hfaulted

theorem executePhase_next (r : DecodeResult) : ∃ t, executePhase r = .next t := by
  cases r with
  | raised s => exact ⟨s, rfl⟩
  | ready i s =>
    obtain ⟨t, hexec, -⟩ := exec_cases i s
    exact ⟨t, hexec⟩

/-- Settles O11: each phase answers a next state, an error of FETCH or DECODE included, since every meaning does. -/
theorem stepAlwaysAnswersNext : Obligations.StepAlwaysAnswersNext := by
  unfold Obligations.StepAlwaysAnswersNext
  intro s
  cases hst : s.st with
  | fetch =>
    cases hop : s.prog[s.pc.toNat]? with
    | none => exact ⟨_, step_fetch_outside s hst (List.getElem?_eq_none_iff.1 hop)⟩
    | some op =>
      rw [step_fetch_read s op hst hop]
      exact executePhase_next _
  | decode | execute =>
    simp only [step, hst]
    exact executePhase_next _
  | halted => exact ⟨s, step_halted s hst⟩
  | faulted => exact ⟨s, step_faulted s hst⟩

/-! ### HALT -/

theorem mnemonicOfInstr_ne_halt (i : Instr) (h : i ≠ .halt) : mnemonicOfInstr i ≠ .halt := by
  cases i with
  | halt => exact absurd rfl h
  | _ => nofun

/-- The byte at the address an instruction decodes from is its opcode (R60, R83). -/
theorem opcode_of_decode_drop {prog rest : List Byte} {k : Nat} {i : Instr}
    (h : decode (prog.drop k) = .instr i rest) : prog[k]? = some (opcodeOf (mnemonicOfInstr i)) := by
  have hbytes := (decode_eq_instr_iff _ _ _).1 h
  calc prog[k]? = (prog.drop k).head? := List.head?_drop.symm
    _ = (encode i ++ rest).head? := by rw [hbytes]
    _ = some (opcodeOf (mnemonicOfInstr i)) := by simp [encode_head]

/-- Only HALT ends in HALTED (R86, R148). -/
theorem ExecOutcome.eq_halt {i : Instr} {s t : State} (h : ExecOutcome i s t) (hst : t.st = .halted) : i = .halt := by
  cases h with
  | halt hi => exact hi
  | adder | register | store | taken | notTaken | waiting | error | stackFault => cases hst

/-- Settles O12: a step from FETCH that does not fault runs the instruction decoded at `pc`, and only HALT halts. -/
theorem haltedOnlyByHalt : Obligations.HaltedOnlyByHalt := by
  unfold Obligations.HaltedOnlyByHalt
  intro s t hfetch hstep hhalted
  rcases step_fetch_cases s t hfetch hstep with hfaulted | ⟨i, rest, ir, op1, op2, st, hdecode, ho⟩
  · cases hhalted.symm.trans hfaulted
  · obtain rfl := ho.eq_halt hhalted
    exact opcode_of_decode_drop hdecode

/-! ### Operand fetch -/

theorem fetchOperands_one (s : State) : fetchOperands 1 s = .ok s := rfl

theorem fetchOperands_two (s : State) (b1 : Byte) (h1 : s.prog[s.iaddr.toNat + 1]? = some b1) :
    fetchOperands 2 s = .ok { s with op1 := b1 } := by
  simp [fetchOperands, progRead, h1]

theorem fetchOperands_three (s : State) (b1 b2 : Byte) (h1 : s.prog[s.iaddr.toNat + 1]? = some b1)
    (h2 : s.prog[s.iaddr.toNat + 2]? = some b2) : fetchOperands 3 s = .ok { s with op1 := b1, op2 := b2 } := by
  simp [fetchOperands, progRead, h1, h2]

/-- A missing first operand byte is the error, whatever else is wrong (R84, R179). -/
theorem fetchOperands_first_missing (len : Nat) (s : State) (hlen : 2 ≤ len)
    (h : s.prog.length ≤ s.iaddr.toNat + 1) :
    fetchOperands len s =
      .error { kind := .boundsError, detail := some (BitVec.ofNat 8 (s.iaddr.toNat + 1)) } := by
  simp [fetchOperands, progRead, Nat.not_lt.2 hlen, List.getElem?_eq_none h]

/-- With the first operand byte the image's last, the second one is the error (R84, R179). -/
theorem fetchOperands_second_missing (s : State) (h : s.prog.length = s.iaddr.toNat + 2) :
    fetchOperands 3 s =
      .error { kind := .boundsError, detail := some (BitVec.ofNat 8 (s.iaddr.toNat + 2)) } := by
  have h1 : s.prog[s.iaddr.toNat + 1]? = some s.prog[s.iaddr.toNat + 1] := List.getElem?_eq_getElem (by omega)
  have h2 : s.prog[s.iaddr.toNat + 2]? = none := List.getElem?_eq_none (by omega)
  simp [fetchOperands, progRead, h1, h2]

/-- With all its bytes inside the image, an instruction with operands has its first one latched (R84). -/
theorem fetchOperands_inside (len : Nat) (s : State) (b1 : Byte) (hlen : len = 2 ∨ len = 3)
    (h1 : s.prog[s.iaddr.toNat + 1]? = some b1) (h : s.iaddr.toNat + len ≤ s.prog.length) :
    ∃ op2, fetchOperands len s = .ok { s with op1 := b1, op2 := op2 } := by
  rcases hlen with rfl | rfl
  · exact ⟨s.op2, fetchOperands_two s b1 h1⟩
  · exact ⟨_, fetchOperands_three s b1 _ h1 (List.getElem?_eq_getElem (by omega))⟩

/-- Operand fetch at the encoding of an instruction latches the encoding's operand bytes (R61, R84). -/
theorem fetchOperands_encode (s : State) (i : Instr) (rest : List Byte)
    (hbytes : s.prog.drop s.iaddr.toNat = encode i ++ rest) :
    fetchOperands (lengthOf (mnemonicOfInstr i)) s =
      .ok { s with op1 := (encode i).getD 1 s.op1, op2 := (encode i).getD 2 s.op2 } := by
  have hget (k : Nat) : s.prog[s.iaddr.toNat + k]? = (encode i ++ rest)[k]? := by
    rw [← hbytes, List.getElem?_drop]
  cases i with
  | halt => exact fetchOperands_one s
  | inc | readIo | shl | shr | complement | branchIfZero | branchIfCarry => exact fetchOperands_two s _ (hget 1)
  | add | sub | addc | and | or | xor | loadDirect | store => exact fetchOperands_three s _ _ (hget 1) (hget 2)

/-! ### DECODE -/

theorem decodePhase_halt (s : State) (h : mnemonicOf s.ir = some .halt) : decodePhase s = .ready .halt s := by
  simp only [decodePhase, h]

theorem decodePhase_operands_missing (s : State) (m : Mnemonic) (trap : Trap) (h : mnemonicOf s.ir = some m)
    (hm : m ≠ .halt) (hfetch : fetchOperands (lengthOf m) s = .error trap) :
    decodePhase s = .raised (raiseTrap (some s.ir) trap s) := by
  simp only [decodePhase, h, hfetch]

theorem decodePhase_operands_read (s u : State) (m : Mnemonic) (h : mnemonicOf s.ir = some m)
    (hm : m ≠ .halt) (hfetch : fetchOperands (lengthOf m) s = .ok u) : decodePhase s = resolvePhase m u := by
  simp only [decodePhase, h, hfetch]

theorem resolvePhase_ok (m : Mnemonic) (s : State) (i : Instr) (h : resolve m s.op1 s.op2 = .ok i) :
    resolvePhase m s = .ready i { s with st := .execute } := by
  simp only [resolvePhase, h]

theorem resolvePhase_error (m : Mnemonic) (s : State) (sel : Byte) (h : resolve m s.op1 s.op2 = .error sel) :
    resolvePhase m s = .raised (enterFaulted (some s.ir) { kind := .decodeError, detail := some sel } s) := by
  simp only [resolvePhase, h]
  rfl

/-- Settles O6: FETCH latches the opcode of the encoding found at `pc`, operand fetch its operand bytes, and these
resolve to the instruction (`resolve_encode`); HALT is ready at once. -/
theorem stepRunsDecodedInstruction : Obligations.StepRunsDecodedInstruction := by
  unfold Obligations.StepRunsDecodedInstruction
  intro s i rest hst hdecode
  have hbytes := (decode_eq_instr_iff _ _ _).1 hdecode
  have hstep : step s = executePhase (decodePhase (fetched (opcodeOf (mnemonicOfInstr i)) s)) :=
    step_fetch_read s _ hst (opcode_of_decode_drop hdecode)
  rw [hstep]
  by_cases hi : i = .halt
  · subst hi
    rw [decodePhase_halt _ rfl]
    rfl
  · have hfetch := fetchOperands_encode (fetched (opcodeOf (mnemonicOfInstr i)) s) i rest hbytes
    rw [decodePhase_operands_read _ _ _ (mnemonicOf_opcodeOf _) (mnemonicOfInstr_ne_halt i hi) hfetch,
      resolvePhase_ok _ _ i (resolve_encode i _ _)]
    simp only [executePhase, latched, fetched, if_neg hi]

/-! ### Errors of DECODE -/

/-- An invalid first selector is the error of every format with a register operand (R85). -/
theorem resolve_first_invalid (m : Mnemonic) (op1 op2 : Byte) (hn : formatOf m ≠ .n) (ht : formatOf m ≠ .t)
    (h1 : regOf op1 = none) : resolve m op1 op2 = .error op1 := by
  cases m with
  | add | sub | addc | and | or | xor => simp only [resolve, resolveRR, h1]
  | inc | readIo | shl | shr | complement | loadDirect | store => simp only [resolve, resolveR, h1]
  | branchIfZero | branchIfCarry => exact absurd rfl ht
  | halt => exact absurd rfl hn

/-- An invalid second selector is the error after a valid first one (R85, R179). -/
theorem resolve_second_invalid (m : Mnemonic) (op1 op2 : Byte) (hrr : formatOf m = .rr) (h1 : regOf op1 ≠ none)
    (h2 : regOf op2 = none) : resolve m op1 op2 = .error op2 := by
  obtain ⟨rd, hrd⟩ := Option.ne_none_iff_exists'.1 h1
  cases m with
  | add | sub | addc | and | or | xor => simp only [resolve, resolveRR, hrd, h2]
  | inc | readIo | shl | shr | complement | loadDirect | store | branchIfZero | branchIfCarry | halt => cases hrr

/-- An operand byte that cannot be read makes the step raise BoundsError with its index (R84). -/
theorem stepRaises_of_operand_missing {s : State} {m : Mnemonic} {detail : Byte} (hm : m ≠ .halt)
    (hst : s.st = .fetch) (hop : s.prog[s.pc.toNat]? = some (opcodeOf m))
    (hfetch : fetchOperands (lengthOf m) (fetched (opcodeOf m) s) =
      .error { kind := .boundsError, detail := some detail }) :
    stepRaises .boundsError (some (opcodeOf m)) detail s := by
  have hstep := step_fetch_read s _ hst hop
  rw [← fetched, decodePhase_operands_missing _ m _ (mnemonicOf_opcodeOf m) hm hfetch] at hstep
  exact stepRaises_of_enterFaulted (op1 := s.op1) (op2 := s.op2) hstep

/-- Operand bytes that are read but do not resolve make the step raise DecodeError with the bad selector (R85). -/
theorem stepRaises_of_bad_selector {s : State} {m : Mnemonic} {op1 op2 sel : Byte} (hm : m ≠ .halt)
    (hst : s.st = .fetch) (hop : s.prog[s.pc.toNat]? = some (opcodeOf m))
    (hfetch : fetchOperands (lengthOf m) (fetched (opcodeOf m) s) =
      .ok { fetched (opcodeOf m) s with op1 := op1, op2 := op2 })
    (hsel : resolve m op1 op2 = .error sel) : stepRaises .decodeError (some (opcodeOf m)) sel s := by
  have hstep := step_fetch_read s _ hst hop
  rw [← fetched, decodePhase_operands_read _ _ m (mnemonicOf_opcodeOf m) hm hfetch,
    resolvePhase_error _ _ sel hsel] at hstep
  exact stepRaises_of_enterFaulted (op1 := op1) (op2 := op2) hstep

/-- Settles O9: operand fetch comes before resolution and reads the first byte first; resolution checks the first
selector first. -/
theorem operandErrorsInOrder : Obligations.OperandErrorsInOrder := by
  unfold Obligations.OperandErrorsInOrder
  intro m hm s hst hop
  refine ⟨fun hlen hmissing => ?_, fun hlen hmissing => ?_, fun b1 hn ht hlen hb1 hbad => ?_,
    fun b1 b2 hrr hb1 hb2 hgood hbad => ?_⟩
  · exact stepRaises_of_operand_missing hm hst hop (fetchOperands_first_missing _ _ hlen hmissing)
  · have hthree : lengthOf m = 3 := hlen
    exact stepRaises_of_operand_missing hm hst hop (hthree ▸ fetchOperands_second_missing _ hmissing)
  · obtain ⟨op2, hfetch⟩ := fetchOperands_inside (lengthOf m) (fetched (opcodeOf m) s) b1
      (lengthOf_of_ne_halt m hm) hb1 hlen
    exact stepRaises_of_bad_selector hm hst hop hfetch (resolve_first_invalid m b1 op2 hn ht hbad)
  · have hthree : lengthOf m = 3 := congrArg formatLength hrr
    have hfetch := fetchOperands_three (fetched (opcodeOf m) s) b1 b2 hb1 hb2
    exact stepRaises_of_bad_selector hm hst hop (hthree ▸ hfetch) (resolve_second_invalid m b1 b2 hrr hgood hbad)

/-! ### READ_IO resumed in EXECUTE -/

theorem latchedInstr_known (s : State) (m : Mnemonic) (h : mnemonicOf s.ir = some m) :
    latchedInstr s = resolvePhase m s := by
  simp only [latchedInstr, h]

/-- In EXECUTE a step runs the instruction its latches resolve to (R80, R87, R90). -/
theorem step_execute (s : State) (i : Instr) (hst : s.st = .execute) (hir : s.ir = opcodeOf (mnemonicOfInstr i))
    (hres : resolve (mnemonicOfInstr i) s.op1 s.op2 = .ok i) : step s = exec i s := by
  have hm : mnemonicOf s.ir = some (mnemonicOfInstr i) := by rw [hir, mnemonicOf_opcodeOf]
  calc step s = executePhase (latchedInstr s) := by simp only [step, hst]
    _ = executePhase (resolvePhase (mnemonicOfInstr i) s) := by rw [latchedInstr_known s _ hm]
    _ = exec i { s with st := .execute } := by rw [resolvePhase_ok _ s i hres, executePhase]
    _ = exec i s := by rw [← hst]

/-- Settles O27: the latches resolve to READ_IO, whose "not yet" moves the cursor and stays in EXECUTE. -/
theorem readIoWaitsAndResumes : Obligations.ReadIoWaitsAndResumes := by
  unfold Obligations.ReadIoWaitsAndResumes
  intro rd s hst hir hop1
  have hres : resolve .readIo s.op1 s.op2 = .ok (.readIo rd) := by
    rw [hop1]
    exact resolve_encode (.readIo rd) s.op1 s.op2
  have hstep : step s = exec (.readIo rd) s := step_execute s (.readIo rd) hst hir hres
  refine ⟨hstep, fun hwait => ?_⟩
  calc step s = exec (.readIo rd) s := hstep
    _ = .next { s with inputPos := s.inputPos + 1, st := .execute } := execReadIo_notYet rd s hwait
    _ = .next { s with inputPos := s.inputPos + 1 } := by rw [← hst]

end Sys2Proof.Machine
end

section
/-! PROOFS of the arithmetic family (41_arithmetic.md): what the eight steps of `Add8` come to, and with them SUB and
ADDC; what ADD, SUB, ADDC and INC do to the state; what an Arithmetic Unit call leaves; that no run has a stack fault. -/

namespace Sys2Proof.Machine

/-! ### Bits and signs as numbers -/

theorem bitNat_eq_one_iff (b : Bool) : bitNat b = 1 ↔ b = true := by
  cases b <;> decide

theorem bitNat_eq_toNat (b : Bool) : bitNat b = b.toNat := by
  cases b <;> rfl

theorem bitNat_getLsbD {w : Nat} (x : BitVec w) (i : Nat) : bitNat (x.getLsbD i) = x.toNat / 2 ^ i % 2 := by
  rw [bitNat_eq_toNat]
  exact Nat.toNat_testBit x.toNat i

/-- The sign bit (R5). -/
theorem bit7_iff (x : Byte) : x.getLsbD 7 = true ↔ 128 ≤ x.toNat := by
  have hx := x.isLt
  rw [← bitNat_eq_one_iff, bitNat_getLsbD]
  omega

theorem bit7_eq_bit7_iff (x y : Byte) : x.getLsbD 7 = y.getLsbD 7 ↔ (128 ≤ x.toNat ↔ 128 ≤ y.toNat) := by
  rw [Bool.eq_iff_iff, bit7_iff, bit7_iff]

/-- The signed reading of a byte: its number, less 256 when the sign bit is set (R5). -/
theorem toInt_eq_sub_sign (x : Byte) : x.toInt = (x.toNat : Int) - 256 * ((x.toNat / 128 : Nat) : Int) := by
  have hx := x.isLt
  rw [BitVec.toInt_eq_toNat_cond]
  split <;> omega

/-! ### The adder's eight steps -/

/-- The final sign bit over the low bits of the magnitude sum is the sum modulo 256 (R101). -/
theorem add8_r (a b : Byte) : (add8 a b).r = a + b := by
  apply BitVec.eq_of_toNat_eq
  simp only [add8, BitVec.toNat_add, BitVec.toNat_ofNat, bitNat_getLsbD]
  omega

/-- C, the carry out of the sign sum, is the carry out of the byte (R101). -/
theorem add8_c_iff (a b : Byte) : (add8 a b).flags.c = true ↔ 256 ≤ a.toNat + b.toNat := by
  have ha := a.isLt
  have hb := b.isLt
  rw [← bitNat_eq_one_iff]
  simp only [add8, BitVec.toNat_ofNat, bitNat_getLsbD]
  omega

/-- V: the carry out of bit 7 is not the carry into it (R100 step 5). -/
theorem add8_v_iff_carries (a b : Byte) :
    (add8 a b).flags.v = true ↔ ¬(256 ≤ a.toNat + b.toNat ↔ 128 ≤ a.toNat % 128 + b.toNat % 128) := by
  have hv : (add8 a b).flags.v =
      ((add8 a b).flags.c ^^ (BitVec.ofNat 8 (a.toNat % 128 + b.toNat % 128)).getLsbD 7) := rfl
  have hsum : (BitVec.ofNat 8 (a.toNat % 128 + b.toNat % 128)).toNat = a.toNat % 128 + b.toNat % 128 := by
    rw [BitVec.toNat_ofNat]
    omega
  rw [hv, Bool.xor_iff_ne, Ne, Bool.eq_iff_iff, add8_c_iff, bit7_iff, hsum]

theorem add8_z (a b : Byte) : (add8 a b).flags.z = decide ((add8 a b).r = 0#8) := rfl

theorem add8_n (a b : Byte) : (add8 a b).flags.n = (add8 a b).r.getLsbD 7 := rfl

theorem add8_r_toNat (a b : Byte) : (add8 a b).r.toNat = (a.toNat + b.toNat) % 256 := by
  rw [add8_r, BitVec.toNat_add]

theorem add8_z_iff (a b : Byte) : (add8 a b).flags.z = true ↔ (add8 a b).r = 0#8 := by
  rw [add8_z, decide_eq_true_iff]

/-- V by signs: the operands agree and the result does not (R101). -/
theorem add8_v_iff_signs (a b : Byte) :
    (add8 a b).flags.v = true ↔ a.getLsbD 7 = b.getLsbD 7 ∧ (add8 a b).r.getLsbD 7 ≠ a.getLsbD 7 := by
  have ha := a.isLt
  have hb := b.isLt
  rw [add8_v_iff_carries, Ne, bit7_eq_bit7_iff, bit7_eq_bit7_iff, add8_r_toNat]
  omega

/-- V by value: the signed sum does not fit in a byte (R101). -/
theorem add8_v_iff_overflow (a b : Byte) :
    (add8 a b).flags.v = true ↔ a.toInt + b.toInt < -128 ∨ 127 < a.toInt + b.toInt := by
  have ha := a.isLt
  have hb := b.isLt
  rw [add8_v_iff_carries, toInt_eq_sub_sign, toInt_eq_sub_sign]
  omega

/-- Settles O15: one law per output of the adder, each read off its steps above. -/
theorem adderLaws : Obligations.AdderLaws := by
  unfold Obligations.AdderLaws
  exact fun a b => ⟨add8_r_toNat a b, add8_c_iff a b, add8_z_iff a b, add8_n a b, add8_v_iff_signs a b,
    add8_v_iff_overflow a b⟩

/-! ### Subtraction -/

/-- `Inc8` of the complement is the two's complement negation (R102). -/
theorem neg8_eq_neg (b : Byte) : neg8 b = -b :=
  (BitVec.neg_eq_not_add b).symm

theorem sub8_r (a b : Byte) : (sub8 a b).r = a - b := by
  rw [sub8, add8_r, neg8_eq_neg, ← sub_eq_add_neg]

/-- C of SUB is "no borrow", except that at `b = 0` the negated operand is 0 and never carries (R109). -/
theorem sub8_c_iff (a b : Byte) : (sub8 a b).flags.c = true ↔ b ≠ 0#8 ∧ b.toNat ≤ a.toNat := by
  have ha := a.isLt
  have hb := b.isLt
  have hzero : b = 0#8 ↔ b.toNat = 0 := BitVec.toNat_inj.symm
  rw [sub8, add8_c_iff, neg8_eq_neg, BitVec.toNat_neg, Ne, hzero]
  omega

/-- V of SUB at `b = 0x80`, which is its own negation: the sign of `a` (R109). -/
theorem sub8_v_minimum (a : Byte) : (sub8 a 0x80#8).flags.v = true ↔ a.getLsbD 7 = true := by
  have ha := a.isLt
  have hneg : neg8 0x80#8 = 0x80#8 := by decide
  have hmin : (0x80#8).toNat = 128 := rfl
  rw [sub8, hneg, add8_v_iff_carries, bit7_iff, hmin]
  omega

/-- V of SUB at every other `b`: the signed difference does not fit in a byte (R109). -/
theorem sub8_v_iff_overflow (a b : Byte) (h : b ≠ 0x80#8) :
    (sub8 a b).flags.v = true ↔ a.toInt - b.toInt < -128 ∨ 127 < a.toInt - b.toInt := by
  have hneg : (neg8 b).toInt = -b.toInt := by rw [neg8_eq_neg, BitVec.toInt_neg_of_ne_intMin h]
  rw [sub8, add8_v_iff_overflow, hneg, ← Int.sub_eq_add_neg]

/-- Settles O16: the adder's laws on the negated operand, whose signed reading is the negation except at 0x80. -/
theorem subtractionFlags : Obligations.SubtractionFlags := by
  unfold Obligations.SubtractionFlags
  refine fun a b => ⟨sub8_r a b, ?_, ?_, sub8_c_iff a b, ?_⟩
  · have hz : (sub8 a b).flags.z = true ↔ (sub8 a b).r = 0#8 := add8_z_iff a (neg8 b)
    rw [hz, sub8_r]
    exact sub_eq_zero
  · have hn : (sub8 a b).flags.n = (sub8 a b).r.getLsbD 7 := add8_n a (neg8 b)
    rw [hn, sub8_r]
  · split
    · next hmin => rw [hmin, sub8_v_minimum]
    · next hother => exact sub8_v_iff_overflow a b hother

/-! ### Addition with carry -/

theorem addc8_flags (a b : Byte) (cin : Bool) : (addc8 a b cin).flags = (add8 a b).flags := rfl

theorem addc8_false (a b : Byte) : addc8 a b false = add8 a b := rfl

theorem addc8_r_toNat (a b : Byte) (cin : Bool) :
    (addc8 a b cin).r.toNat = (a.toNat + b.toNat + bitNat cin) % 256 := by
  cases cin with
  | false => exact add8_r_toNat a b
  | true =>
    have hr : (addc8 a b true).r = (add8 a b).r + 1#8 := rfl
    have hone : (1#8).toNat = 1 := rfl
    rw [hr, BitVec.toNat_add, add8_r_toNat, hone, Nat.mod_add_mod]
    rfl

/-- Settles O17: the plain sum's flags by the adder's laws at sums 0xFF and 0x7F, the register by `addc8_r_toNat`. -/
theorem addcFlagsIgnoreCarryIn : Obligations.AddcFlagsIgnoreCarryIn := by
  unfold Obligations.AddcFlagsIgnoreCarryIn
  intro a b
  have ha := a.isLt
  have hb := b.isLt
  have hsum := add8_r_toNat a b
  have hone : bitNat true = 1 := rfl
  refine ⟨rfl, rfl, fun hff => ?_, fun h7f => ?_⟩
  · have hr : (add8 a b).r = 0xFF#8 := BitVec.eq_of_toNat_eq (hsum.trans hff)
    refine ⟨BitVec.eq_of_toNat_eq ?_, ?_, ?_, ?_⟩
    · rw [addc8_r_toNat, hone, BitVec.toNat_zero]
      omega
    · rw [addc8_flags, add8_z, hr]
      rfl
    · rw [addc8_flags, add8_n, hr]
      rfl
    · rw [addc8_flags, ← Bool.not_eq_true, add8_c_iff]
      omega
  · have hr : (add8 a b).r = 0x7F#8 := BitVec.eq_of_toNat_eq (by rw [hsum, h7f]; rfl)
    refine ⟨BitVec.eq_of_toNat_eq ?_, ?_, ?_⟩
    · rw [addc8_r_toNat, hone, h7f]
      rfl
    · rw [addc8_flags, ← Bool.not_eq_true, add8_v_iff_carries]
      omega
    · rw [addc8_flags, add8_n, hr]
      rfl

/-! ### The instructions -/

theorem otherRegsSame_of_setReg {rd : Reg} {v : Byte} {s t : State} (h : t.regs = setReg s.regs rd v) :
    otherRegsSame rd s t := fun i hi => by
  rw [h, getReg_setReg_other s.regs rd i v hi]

/-- What the end of an adder instruction leaves: the destination, the four flags and the scratch cell written, and the
frame of a completed instruction (R103, R110 to R112). -/
theorem complete_adderDone (i : Instr) (rd : Reg) (res : AddResult) (scratch : Byte) (n : Nat) (s : State)
    (hwf : s.memoryWf) :
    ∃ t, complete i (adderDone rd res scratch n s) = .next t ∧
      getReg t.regs rd = res.r ∧ otherRegsSame rd s t ∧ t.flags = res.flags ∧ memoryStored 10 scratch s t ∧
      t.inputPos = s.inputPos ∧
      completed i (s.iaddr + BitVec.ofNat 8 (lengthOf (mnemonicOfInstr i))) s t :=
  ⟨_, rfl, getReg_setReg_same s.regs rd res.r, otherRegsSame_of_setReg rfl, rfl,
    ⟨memLookup_memInsert_same s.mem 10 scratch hwf, fun a ha => memLookup_memInsert_other s.mem 10 a scratch ha⟩, rfl,
    rfl, rfl, rfl, rfl, rfl, rfl, rfl⟩

/-- What the end of an instruction that only writes its destination leaves: that register written, and the frame of a
completed instruction (R87, R113). -/
theorem complete_writeReg (i : Instr) (rd : Reg) (v : Byte) (s : State) :
    ∃ t, complete i (writeReg rd v s) = .next t ∧
      getReg t.regs rd = v ∧ otherRegsSame rd s t ∧ t.flags = s.flags ∧ memorySame s t ∧ t.inputPos = s.inputPos ∧
      completed i (s.iaddr + BitVec.ofNat 8 (lengthOf (mnemonicOfInstr i))) s t :=
  ⟨_, rfl, getReg_setReg_same s.regs rd v, otherRegsSame_of_setReg rfl, rfl, fun _ => rfl, rfl,
    rfl, rfl, rfl, rfl, rfl, rfl, rfl⟩

/-- Settles O20: with room for one save set ADD completes from `adderDone`; its errors are those of O9. -/
theorem addInstruction : Obligations.AddInstruction := by
  unfold Obligations.AddInstruction
  refine ⟨fun _ _ => rfl, operandErrorsInOrder .add (by decide), fun rd rs s hwf hroom => ?_⟩
  obtain ⟨t, ht, hdone⟩ := complete_adderDone (.add rd rs) rd _ _ 5 s hwf
  exact ⟨t, (execAdd_fits rd rs s hroom).trans ht, hdone⟩

/-- Settles O21: with room for two save sets SUB completes from `adderDone` with the values of `sub8`. -/
theorem subInstruction : Obligations.SubInstruction := by
  unfold Obligations.SubInstruction
  refine ⟨fun _ _ => rfl, operandErrorsInOrder .sub (by decide), fun rd rs s hwf hroom => ?_⟩
  have hr := sub8_r (readReg rd s) (readReg rs s)
  obtain ⟨t, ht, hrd, hothers, hflags, hscratch, hframe⟩ := complete_adderDone (.sub rd rs) rd _ _ 10 s hwf
  exact ⟨t, (execSub_fits rd rs s hroom).trans ht, hrd.trans hr, hothers, hflags, hr ▸ hscratch, hframe⟩

/-- Settles O22: with room for two save sets ADDC completes from `adderDone` with the register of `addc8` and the flags
and scratch cell of `add8`. -/
theorem addcInstruction : Obligations.AddcInstruction := by
  unfold Obligations.AddcInstruction
  refine ⟨fun _ _ => rfl, operandErrorsInOrder .addc (by decide), fun rd rs s hwf hroom => ?_⟩
  have hr := addc8_r_toNat (readReg rd s) (readReg rs s) s.flags.c
  have hplain := add8_r (readReg rd s) (readReg rs s)
  obtain ⟨t, ht, hrd, hothers, hflags, hscratch, hframe⟩ := complete_adderDone (.addc rd rs) rd _ _ 10 s hwf
  exact ⟨t, (execAddc_fits rd rs s hroom).trans ht, (congrArg BitVec.toNat hrd).trans hr, hothers, hflags,
    hplain ▸ hscratch, hframe⟩

/-- Settles O23: INC completes with its destination alone written. -/
theorem incInstruction : Obligations.IncInstruction := by
  unfold Obligations.IncInstruction
  refine ⟨fun _ => rfl, operandErrorsInOrder .inc (by decide), fun rd s => ?_⟩
  obtain ⟨t, ht, hrd, hframe⟩ := complete_writeReg (.inc rd) rd (inc8 (readReg rd s)) s
  have hinc : (inc8 (readReg rd s)).toNat = ((readReg rd s).toNat + 1) % 256 := BitVec.toNat_add _ _
  exact ⟨t, ht, (congrArg BitVec.toNat hrd).trans hinc, hframe⟩

/-- Settles O38: with carry-in 0 the value of ADDC is that of ADD, so both complete from the same registers, flags and
memory; only the count of free values used differs. -/
theorem addcWithoutCarryIsAdd : Obligations.AddcWithoutCarryIsAdd := by
  unfold Obligations.AddcWithoutCarryIsAdd
  intro rd rs s hroom hclear
  have haddc := execAddc_fits rd rs s hroom
  rw [hclear, addc8_false] at haddc
  exact ⟨_, _, haddc, execAdd_fits rd rs s (by omega), rfl, rfl, rfl, rfl, rfl, rfl⟩

/-! ### Arithmetic Unit calls and runs -/

/-- A call that succeeds leaves registers, stack, flags and `pc`, and writes the scratch cell alone (R103 to R106). -/
theorem afterAdder_restores (r : Byte) (n : Nat) (s : State) :
    (afterAdder r n s).regs = s.regs ∧ (afterAdder r n s).stk = s.stk ∧ (afterAdder r n s).flags = s.flags ∧
      (afterAdder r n s).pc = s.pc ∧ (afterAdder r n s).mem = memInsert s.mem 10 r :=
  ⟨rfl, rfl, rfl, rfl, rfl⟩

/-- Settles O46: each of the three calls fits and ends in an `afterAdder` state. -/
theorem aluCallsRestoreRegistersAndStack : Obligations.AluCallsRestoreRegistersAndStack := by
  unfold Obligations.AluCallsRestoreRegistersAndStack
  intro a b cin s hroom
  exact ⟨_, _, _, aluAdd_fits a b s (by omega), aluSub_fits a b s hroom, aluAddc_fits a b cin s hroom,
    afterAdder_restores _ _ s, afterAdder_restores _ _ s, afterAdder_restores _ _ s⟩

theorem run_succ (k : Nat) (s t : State) (h : step s = .next t) :
    Host.Core.run core (k + 1) s = Host.Core.run core k t := by
  have hcore : core.step s = .next t := h
  simp only [Host.Core.run, hcore]

/-- Every state a run reaches from a good one is good. -/
theorem State.Good.of_run {s t : State} (hgood : s.Good) (k : Nat) (h : Host.Core.run core k s = .next t) :
    t.Good := by
  induction k generalizing s with
  | zero =>
    cases h
    exact hgood
  | succ k ih =>
    obtain ⟨u, hstep⟩ := stepAlwaysAnswersNext s
    rw [run_succ k s u hstep] at h
    exact ih (stepKeepsGood s u hgood hstep) h

/-- Settles O48: every state of a run from a legal start is good, which includes both claims. -/
theorem stackFaultsNeverHappen : Obligations.StackFaultsNeverHappen := by
  unfold Obligations.StackFaultsNeverHappen
  intro regs memInit prog input k t hlegal hrun
  have hgood : t.Good := (startIsGood.2 regs memInit prog input hlegal).of_run k hrun
  exact ⟨hgood.stackEmpty, hgood.stackFaultFree⟩

end Sys2Proof.Machine
end

section
/-! PROOFS of the load, store and input family (42_load_store_io.md): the precise error of an instruction that has been
decoded, and what LOAD_DIRECT, READ_IO and STORE do to the state. -/

namespace Sys2Proof.Machine

/-! ### Errors of EXECUTE -/

/-- A trap in DECODE or EXECUTE, stack faults aside, is precise: the instruction's address and opcode in the error
record, and nothing else written (R176, R177). -/
theorem raiseInInstr_precise (trap : Trap) (s : State) (h : isStackFault trap.kind = false) :
    ∃ t, raiseInInstr trap s = .next t ∧
      errorIs trap.kind s.iaddr (some s.ir) (trapDetail trap s) t ∧ keptByError s t := by
  have hraise : raiseInInstr trap s = .next (enterFaulted (some s.ir) trap s) := by
    simp [raiseInInstr, raiseTrap, h]
  exact ⟨_, hraise, ⟨rfl, rfl⟩, rfl, rfl, rfl, rfl, fun _ => rfl, rfl, rfl, rfl, rfl⟩

/-- An instruction that traps when executed makes the step at its encoding take that error, with the instruction's own
opcode (R82, R87, R177). -/
theorem stepRaises_of_exec_raises {s : State} {i : Instr} {rest : List Byte} {kind : ErrKind} {detail : Byte}
    (hkind : isStackFault kind = false) (hst : s.st = .fetch)
    (hdecode : decode (s.prog.drop s.pc.toNat) = .instr i rest)
    (hexec : exec i (latched i s) = raiseInInstr { kind := kind, detail := some detail } (latched i s)) :
    stepRaises kind (some (opcodeOf (mnemonicOfInstr i))) detail s := by
  have hstep : step s = exec i (latched i s) := stepRunsDecodedInstruction s i rest hst hdecode
  rw [hexec] at hstep
  obtain ⟨t, ht, herr, hkept⟩ := raiseInInstr_precise { kind := kind, detail := some detail } (latched i s) hkind
  exact ⟨t, hstep.trans ht, herr, hkept⟩

/-! ### The instructions -/

/-- What the end of an instruction that only writes a cell leaves: that cell written, and the frame of a completed
instruction (R43, R87). -/
theorem complete_memInsert (i : Instr) (addr : Nat) (v : Byte) (s : State) (hwf : s.memoryWf) :
    ∃ t, complete i { s with mem := memInsert s.mem addr v } = .next t ∧
      t.regs = s.regs ∧ t.flags = s.flags ∧ memoryStored addr v s t ∧ t.inputPos = s.inputPos ∧
      completed i (s.iaddr + BitVec.ofNat 8 (lengthOf (mnemonicOfInstr i))) s t :=
  ⟨_, rfl, rfl, rfl,
    ⟨memLookup_memInsert_same s.mem addr v hwf, fun a ha => memLookup_memInsert_other s.mem addr a v ha⟩, rfl,
    rfl, rfl, rfl, rfl, rfl, rfl, rfl⟩

/-- Settles O24: at an existing cell LOAD_DIRECT only writes its destination; at any other address it raises. -/
theorem loadDirectInstruction : Obligations.LoadDirectInstruction := by
  unfold Obligations.LoadDirectInstruction
  refine ⟨fun _ _ => rfl, operandErrorsInOrder .loadDirect (by decide),
    fun r addr s => ⟨fun hin => ?_, fun hout => ?_, fun hout rest hst hdecode => ?_⟩⟩
  · obtain ⟨t, ht, hdone⟩ := complete_writeReg (.loadDirect r addr) r (memLookup s.mem addr.toNat) s
    exact ⟨t, (execLoadDirect_reads r addr s ((lt_memSize_iff _).2 hin)).trans ht, hdone⟩
  · obtain ⟨t, ht, herror⟩ := raiseInInstr_precise { kind := .boundsError, detail := some addr } s rfl
    exact ⟨t, (execLoadDirect_outside r addr s hout).trans ht, herror⟩
  · exact stepRaises_of_exec_raises rfl hst hdecode (execLoadDirect_outside r addr _ hout)

/-- Settles O25: with a value from its source READ_IO only moves the cursor and writes its destination. -/
theorem readIoInstruction : Obligations.ReadIoInstruction := by
  unfold Obligations.ReadIoInstruction
  refine ⟨fun _ => rfl, operandErrorsInOrder .readIo (by decide), fun rd v s hvalue => ?_⟩
  obtain ⟨t, ht, hdone⟩ := complete_writeReg (.readIo rd) rd v { s with inputPos := s.inputPos + 1 }
  exact ⟨t, (execReadIo_value rd v s hvalue).trans ht, hdone⟩

/-- Settles O28: at an existing cell STORE only writes that cell; at any other address it raises. -/
theorem storeInstruction : Obligations.StoreInstruction := by
  unfold Obligations.StoreInstruction
  refine ⟨fun _ _ => rfl, operandErrorsInOrder .store (by decide), fun _ => rfl,
    fun r addr s hwf => ⟨fun hin => ?_, fun hout => ?_, fun hout rest hst hdecode => ?_⟩⟩
  · obtain ⟨t, ht, hdone⟩ := complete_memInsert (.store r addr) addr.toNat (readReg r s) s hwf
    exact ⟨t, (execStore_writes r addr s ((lt_memSize_iff _).2 hin)).trans ht, hdone⟩
  · obtain ⟨t, ht, herror⟩ := raiseInInstr_precise { kind := .boundsError, detail := some addr } s rfl
    exact ⟨t, (execStore_outside r addr s hout).trans ht, herror⟩
  · exact stepRaises_of_exec_raises rfl hst hdecode (execStore_outside r addr _ hout)

end Sys2Proof.Machine
end

section
/-! PROOFS of the shift family (43_shift.md): the shifts by one as arithmetic, what SHL and SHR do to the state, and the
two idioms: doubling by ADD, negating by COMPLEMENT then INC. -/

namespace Sys2Proof.Machine

/-! ### Shifts by one as arithmetic -/

/-- Toward bit 7 is doubling, the old bit 7 discarded (R130). -/
theorem shiftLeft_one_toNat (x : Byte) : (x <<< 1).toNat = x.toNat * 2 % 256 := by
  rw [BitVec.toNat_shiftLeft, Nat.shiftLeft_eq]

/-- Toward bit 0 is halving, the old bit 0 discarded (R131). -/
theorem shiftRight_one_toNat (x : Byte) : (x >>> 1).toNat = x.toNat / 2 := by
  rw [BitVec.toNat_ushiftRight, Nat.shiftRight_eq_div_pow]

/-! ### The instructions -/

/-- Settles O29: SHL completes with its destination alone written. -/
theorem shlInstruction : Obligations.ShlInstruction := by
  unfold Obligations.ShlInstruction
  refine ⟨fun _ => rfl, operandErrorsInOrder .shl (by decide), fun rd s => ?_⟩
  obtain ⟨t, ht, hrd, hframe⟩ := complete_writeReg (.shl rd) rd (readReg rd s <<< 1) s
  exact ⟨t, ht, (congrArg BitVec.toNat hrd).trans (shiftLeft_one_toNat (readReg rd s)), hframe⟩

/-- Settles O30: SHR completes with its destination alone written. -/
theorem shrInstruction : Obligations.ShrInstruction := by
  unfold Obligations.ShrInstruction
  refine ⟨fun _ => rfl, operandErrorsInOrder .shr (by decide), fun rd s => ?_⟩
  obtain ⟨t, ht, hrd, hframe⟩ := complete_writeReg (.shr rd) rd (readReg rd s >>> 1) s
  exact ⟨t, ht, (congrArg BitVec.toNat hrd).trans (shiftRight_one_toNat (readReg rd s)), hframe⟩

/-! ### The idioms -/

/-- A byte added to itself is the byte shifted left (R132). -/
theorem add8_self_r (a : Byte) : (add8 a a).r = a <<< 1 := by
  apply BitVec.eq_of_toNat_eq
  rw [add8_r_toNat, shiftLeft_one_toNat, Nat.mul_two]

/-- The carry of a byte added to itself is the bit that the shift discards (R132). -/
theorem add8_self_c (a : Byte) : (add8 a a).flags.c = a.getLsbD 7 := by
  rw [Bool.eq_iff_iff, add8_c_iff, bit7_iff]
  omega

theorem neg8_toNat (b : Byte) : (neg8 b).toNat = (256 - b.toNat) % 256 := by
  rw [neg8_eq_neg, BitVec.toNat_neg]

/-- With room for one save set, ADD of a register to itself gives the registers of SHL, and the lost bit in C (R132). -/
theorem exec_add_self_shl (r : Reg) (s : State) (hroom : s.stk.length + 5 ≤ Config.stackDepth) :
    ∃ t u, exec (.add r r) s = .next t ∧ exec (.shl r) s = .next u ∧ t.regs = u.regs ∧
      t.flags.c = (getReg s.regs r).getLsbD 7 :=
  ⟨_, _, execAdd_fits r r s hroom, rfl, congrArg (setReg s.regs r) (add8_self_r (readReg r s)),
    add8_self_c (readReg r s)⟩

/-- COMPLEMENT then INC puts the negation SUB makes in the register, and writes no other register and no flag (R138). -/
theorem exec_complement_inc (r : Reg) (s : State) :
    ∃ t u, exec (.complement r) s = .next t ∧ exec (.inc r) t = .next u ∧
      getReg u.regs r = neg8 (getReg s.regs r) ∧ otherRegsSame r s u ∧ u.flags = s.flags := by
  obtain ⟨t, ht, htr, htothers, htflags, -⟩ := complete_writeReg (.complement r) r (~~~(readReg r s)) s
  obtain ⟨u, hu, hur, huothers, huflags, -⟩ := complete_writeReg (.inc r) r (inc8 (readReg r t)) t
  exact ⟨t, u, ht, hu, hur.trans (congrArg inc8 htr), fun i hi => (huothers i hi).trans (htothers i hi),
    huflags.trans htflags⟩

/-- Settles O19: the two idioms on states, then the same laws of the byte functions. -/
theorem shiftAndNegationIdioms : Obligations.ShiftAndNegationIdioms := by
  unfold Obligations.ShiftAndNegationIdioms
  refine ⟨exec_add_self_shl, fun r s => ?_, fun a => ⟨add8_self_r a, add8_self_c a, rfl, neg8_toNat a⟩⟩
  obtain ⟨t, u, ht, hu, hneg, hframe⟩ := exec_complement_inc r s
  exact ⟨t, u, ht, hu, hneg, (congrArg BitVec.toNat hneg).trans (neg8_toNat (getReg s.regs r)), hframe⟩

end Sys2Proof.Machine
end

section
/-! PROOFS of the logic family (44_logic.md): AND, OR and XOR bit by bit, COMPLEMENT as subtraction from 255. Each writes
its destination alone, so the frame is that of `complete_writeReg`. -/

namespace Sys2Proof.Machine

/-- Settles O31: AND completes with its destination alone written. -/
theorem andInstruction : Obligations.AndInstruction := by
  unfold Obligations.AndInstruction
  refine ⟨fun _ _ => rfl, operandErrorsInOrder .and (by decide), fun rd rs s => ?_⟩
  obtain ⟨t, ht, hrd, hframe⟩ := complete_writeReg (.and rd rs) rd (readReg rd s &&& readReg rs s) s
  exact ⟨t, ht, fun _ => hrd ▸ BitVec.getLsbD_and, hframe⟩

/-- Settles O32: OR completes with its destination alone written. -/
theorem orInstruction : Obligations.OrInstruction := by
  unfold Obligations.OrInstruction
  refine ⟨fun _ _ => rfl, operandErrorsInOrder .or (by decide), fun rd rs s => ?_⟩
  obtain ⟨t, ht, hrd, hframe⟩ := complete_writeReg (.or rd rs) rd (readReg rd s ||| readReg rs s) s
  exact ⟨t, ht, fun _ => hrd ▸ BitVec.getLsbD_or, hframe⟩

/-- Settles O33: XOR completes with its destination alone written, and a byte cancels itself when the operands are one
register. -/
theorem xorInstruction : Obligations.XorInstruction := by
  unfold Obligations.XorInstruction
  refine ⟨fun _ _ => rfl, operandErrorsInOrder .xor (by decide), fun rd rs s => ?_⟩
  obtain ⟨t, ht, hrd, hframe⟩ := complete_writeReg (.xor rd rs) rd (readReg rd s ^^^ readReg rs s) s
  have hself (h : rd = rs) : readReg rd s ^^^ readReg rs s = 0#8 := h ▸ BitVec.xor_self
  exact ⟨t, ht, fun _ => hrd ▸ BitVec.getLsbD_xor, fun h => hrd.trans (hself h), hframe⟩

/-- Settles O34: COMPLEMENT completes with its destination alone written. -/
theorem complementInstruction : Obligations.ComplementInstruction := by
  unfold Obligations.ComplementInstruction
  refine ⟨fun _ => rfl, operandErrorsInOrder .complement (by decide), fun rd s => ?_⟩
  obtain ⟨t, ht, hrd, hframe⟩ := complete_writeReg (.complement rd) rd (~~~(readReg rd s)) s
  have hnot : (~~~(readReg rd s)).toNat = 255 - (readReg rd s).toNat := BitVec.toNat_not
  exact ⟨t, ht, (congrArg BitVec.toNat hrd).trans hnot, hframe⟩

end Sys2Proof.Machine
end

section
/-! PROOFS of the branch and halt family (45_branch_halt.md): what completing at a given `pc` leaves, so what the two
branches do to the state; when a bad target is found out; HALT. -/

namespace Sys2Proof.Machine

/-! ### The branches -/

/-- What an instruction that writes nothing but `pc` leaves: the frame of a completed instruction, with registers,
flags, memory and input cursor as they were (R145, R146). -/
theorem completeAt_unwritten (i : Instr) (pc : Byte) (s : State) :
    ∃ t, completeAt i pc s = .next t ∧
      t.regs = s.regs ∧ t.flags = s.flags ∧ memorySame s t ∧ t.inputPos = s.inputPos ∧ completed i pc s t :=
  ⟨_, rfl, rfl, rfl, fun _ => rfl, rfl, rfl, rfl, rfl, rfl, rfl, rfl, rfl⟩

/-- A branch completes at the operand byte or past its own bytes, by its condition (R145 to R147). -/
theorem branchIf_eq_completeAt (i : Instr) (taken : Bool) (target : Byte) (s : State) :
    branchIf i taken target s =
      completeAt i (if taken then target else s.iaddr + BitVec.ofNat 8 (lengthOf (mnemonicOfInstr i))) s := by
  cases taken with
  | true => exact branchIf_taken i target s
  | false => exact branchIf_notTaken i target s

theorem exec_branchIfZero (target : Byte) (s : State) :
    exec (.branchIfZero target) s =
      completeAt (.branchIfZero target) (if s.flags.z then target else s.iaddr + 2#8) s :=
  branchIf_eq_completeAt _ _ target s

theorem exec_branchIfCarry (target : Byte) (s : State) :
    exec (.branchIfCarry target) s =
      completeAt (.branchIfCarry target) (if s.flags.c then target else s.iaddr + 2#8) s :=
  branchIf_eq_completeAt _ _ target s

/-- Settles O35: either way the branch only completes; a missing operand byte is found in DECODE, before Z is read. -/
theorem branchIfZeroInstruction : Obligations.BranchIfZeroInstruction := by
  unfold Obligations.BranchIfZeroInstruction
  refine ⟨fun _ => rfl, operandErrorsInOrder .branchIfZero (by decide), fun target s => ?_⟩
  rw [exec_branchIfZero]
  exact completeAt_unwritten _ _ s

/-- Settles O36: either way the branch only completes; a missing operand byte is found in DECODE, before C is read. -/
theorem branchIfCarryInstruction : Obligations.BranchIfCarryInstruction := by
  unfold Obligations.BranchIfCarryInstruction
  refine ⟨fun _ => rfl, operandErrorsInOrder .branchIfCarry (by decide), fun target s => ?_⟩
  rw [exec_branchIfCarry]
  exact completeAt_unwritten _ _ s

/-! ### The moment of the target check -/

@[simp] theorem latched_flags (i : Instr) (s : State) : (latched i s).flags = s.flags := rfl

/-- A step on an instruction that completes at an index outside the image is no error; the step after it is, in FETCH
(R82, R147). -/
theorem step_completes_outside {s : State} {i : Instr} {rest : List Byte} {pc : Byte} (hst : s.st = .fetch)
    (hout : s.prog.length ≤ pc.toNat) (hdecode : decode (s.prog.drop s.pc.toNat) = .instr i rest)
    (hexec : exec i (latched i s) = completeAt i pc (latched i s)) :
    ∃ t, step s = .next t ∧ t.st = .fetch ∧ t.pc = pc ∧ stepRaises .boundsError none pc t := by
  have hstep : step s = exec i (latched i s) := stepRunsDecodedInstruction s i rest hst hdecode
  obtain ⟨t, ht, -, -, -, -, hfetch, hpc, -, -, hprog, -⟩ := completeAt_unwritten i pc (latched i s)
  have himage : t.prog.length ≤ t.pc.toNat := by
    rw [hprog, hpc]
    exact hout
  have hraises : stepRaises .boundsError none t.pc t := (fetchReadsOpcodeOrRaises t hfetch).2 himage
  exact ⟨t, hstep.trans (hexec.trans ht), hfetch, hpc, hpc ▸ hraises⟩

/-- Settles O13: a branch that is taken completes at its target, wherever that is. -/
theorem branchTargetCheckedAtNextFetch : Obligations.BranchTargetCheckedAtNextFetch := by
  unfold Obligations.BranchTargetCheckedAtNextFetch
  rintro s target rest hst hout (⟨hdecode, hz⟩ | ⟨hdecode, hc⟩)
  · refine step_completes_outside hst hout hdecode ?_
    rw [exec_branchIfZero, latched_flags, if_pos hz]
  · refine step_completes_outside hst hout hdecode ?_
    rw [exec_branchIfCarry, latched_flags, if_pos hc]

/-! ### HALT -/

/-- From FETCH with the HALT opcode at `pc`, a step executes HALT on the latched byte, with no operand fetched, so also
where that byte is the last loaded one (R86, R148). -/
theorem step_fetch_halt (s : State) (hst : s.st = .fetch) (hop : s.prog[s.pc.toNat]? = some 0x10#8) :
    step s = exec .halt (fetched 0x10#8 s) :=
  calc step s = executePhase (decodePhase (fetched 0x10#8 s)) := step_fetch_read s _ hst hop
    _ = executePhase (.ready .halt (fetched 0x10#8 s)) := by rw [decodePhase_halt _ rfl]
    _ = exec .halt (fetched 0x10#8 s) := rfl

/-- HALT enters HALTED with its event, and writes nothing else (R148, R160). -/
theorem exec_halt (s : State) : exec .halt s = .next (finish .halt .halted s) := rfl

/-- Settles O37: HALT only finishes in HALTED; a step on its opcode is that, and HALTED is terminal. -/
theorem haltInstruction : Obligations.HaltInstruction := by
  unfold Obligations.HaltInstruction
  refine ⟨rfl, fun s => ?_, fun s hst hop => ?_⟩
  · exact ⟨_, exec_halt s, rfl, rfl, rfl, rfl, fun _ => rfl, rfl, rfl, rfl, rfl, rfl, rfl⟩
  · have hstep := (step_fetch_halt s hst hop).trans (exec_halt (fetched 0x10#8 s))
    exact ⟨_, hstep, rfl, rfl, step_halted _ rfl⟩

end Sys2Proof.Machine
end

section
/-! PROOFS of the interface family (50_interfaces.md): the telemetry of a step, the input channel over a sequence of
bytes, and reset in any state. -/

namespace Sys2Proof.Machine

/-! ### Telemetry -/

@[simp] theorem unspecifyAll_events (s : State) : (unspecifyAll s).events = s.events := rfl

/-- How an instruction ends decides its telemetry (R160): one event with the state after it on completion, none where it
waits or faults. -/
theorem ExecOutcome.events_cases {i : Instr} {s t : State} (h : ExecOutcome i s t) :
    ((t.st = .fetch ∨ t.st = .halted) ∧ t.events = s.events ++ [eventOf i { t with iaddr := s.iaddr }]) ∨
    ((t.st = .execute ∨ t.st = .faulted) ∧ t.events = s.events) := by
  cases h with
  | adder | register | store | taken | notTaken => exact .inl ⟨.inl rfl, rfl⟩
  | halt => exact .inl ⟨.inr rfl, rfl⟩
  | waiting => exact .inr ⟨.inl rfl, rfl⟩
  | error => exact .inr ⟨.inr rfl, rfl⟩
  | stackFault => exact .inr ⟨.inr rfl, unspecifyAll_events _⟩

/-- Settles O44: the step runs the decoded instruction latched at `pc`, and the phase it ends in tells its two kinds of
telemetry apart. -/
theorem oneEventPerCompletedInstruction : Obligations.OneEventPerCompletedInstruction := by
  unfold Obligations.OneEventPerCompletedInstruction
  intro s t i rest hst hdecode hstep
  rw [stepRunsDecodedInstruction s i rest hst hdecode] at hstep
  rcases (exec_next i (latched i s) t hstep).events_cases with ⟨hend, hevents⟩ | ⟨hend, hevents⟩
  · refine ⟨fun _ => hevents, fun hother => ?_⟩
    rcases hend with h | h <;> simp [h] at hother
  · refine ⟨fun hother => ?_, fun _ => hevents⟩
    rcases hend with h | h <;> simp [h] at hother

/-! ### The input channel -/

/-- A request that is answered with a value returns it and only moves the cursor (R157). -/
theorem inRead_value (s : State) (v : Byte) (h : inputAnswer s.input s.inputPos = some (.value v)) :
    inRead s = .got v { s with inputPos := s.inputPos + 1 } := by
  simp only [inRead, h]

/-- A request that no value will come for is InputUnavailable (R157, R174). -/
theorem inRead_exhausted (s : State) (h : inputAnswer s.input s.inputPos = none) :
    inRead s = .unavailable { kind := .inputUnavailable, detail := none } := by
  simp only [inRead, h]

/-- Within a listed byte sequence the source answers with the byte at the cursor, whatever its tail. -/
theorem inputAnswer_bytes_inside (bytes : List Byte) (tail : InputTail) (k : Nat) (v : Byte) (h : bytes[k]? = some v) :
    inputAnswer { answers := bytes.map .value, tail := tail } k = some (.value v) :=
  inputAnswer_listed _ k _ (by simp [h])

/-- Past a listed byte sequence the tail answers. -/
theorem inputAnswer_bytes_past (bytes : List Byte) (tail : InputTail) (k : Nat) (h : bytes.length ≤ k) :
    inputAnswer { answers := bytes.map .value, tail := tail } k = tailAnswer tail (k - bytes.length) := by
  rw [inputAnswer_tail _ k (by simpa using h), List.length_map]

/-- With a tail of values every request is answered with a value: the listed byte, or the tail's past the list. -/
theorem inputAnswer_bytes_values (bytes : List Byte) (source k : Nat) :
    inputAnswer { answers := bytes.map .value, tail := .values source } k =
      some (.value (bytes.getD k (Config.inputByte source (k - bytes.length)))) := by
  rcases Nat.lt_or_ge k bytes.length with hin | hpast
  · rw [List.getD_eq_getElem _ _ hin]
    exact inputAnswer_bytes_inside bytes _ k _ (List.getElem?_eq_getElem hin)
  · rw [List.getD_eq_default _ _ hpast]
    exact inputAnswer_bytes_past bytes _ k hpast

/-- Settles O58: what a request comes to is what the source answers at the cursor. -/
theorem inputSequence : Obligations.InputSequence := by
  unfold Obligations.InputSequence
  refine ⟨fun bytes s hinput => ⟨fun v hv => ?_, fun hpast => ?_⟩, fun bytes source s hinput => ?_⟩
  · exact inRead_value s v (hinput ▸ inputAnswer_bytes_inside bytes .ends s.inputPos v hv)
  · exact inRead_exhausted s (hinput ▸ inputAnswer_bytes_past bytes .ends s.inputPos hpast)
  · exact inRead_value s _ (hinput ▸ inputAnswer_bytes_values bytes source s.inputPos)

/-! ### Reset -/

/-- Reset reaches a good state from any state whose image fits (R195, R196). -/
theorem applyReset_good (s : State) (hfits : s.imageFits) : (applyReset s).Good :=
  good_of_completed reset_memory_wf rfl hfits (.inl rfl) rfl

/-- Settles O56: reset is `State.reset` in every field that the statement compares; the image it keeps is the only one
that bears on being good. -/
theorem resetFromAnyState : Obligations.ResetFromAnyState := by
  unfold Obligations.ResetFromAnyState
  intro s
  exact ⟨rfl, rfl, rfl, rfl, rfl, rfl, fun a => memLookup_eq_default [] a (by simp), rfl, rfl, applyReset_good s⟩

end Sys2Proof.Machine
end

section
/-! PROOFS of the exception and hazard families (60_exceptions.md, 70_reset_and_hazards.md): what a raise records and
what a precise error keeps, READ_IO without input, the adders on a full stack, and addition over two bytes. -/

namespace Sys2Proof.Machine

/-! ### Taking an error -/

/-- Every raise enters FAULTED with the trap in the error record, a stack fault included: what a stack fault loses is
neither `st` nor `err` (R177, R178). -/
theorem raiseTrap_errorIs (opcode : Option Byte) (trap : Trap) (s : State) :
    errorIs trap.kind s.iaddr opcode (trapDetail trap s) (raiseTrap opcode trap s) := by
  unfold raiseTrap
  split
  · exact ⟨unspecifyAll_st _, unspecifyAll_err _⟩
  · exact ⟨rfl, rfl⟩

/-- A precise error taken at `pc`, whatever has been latched before it, keeps everything but `st` and `err` (R176,
R177). -/
theorem enterFaulted_precise (s : State) (opcode : Option Byte) (trap : Trap) (ir op1 op2 : Byte) (st : Phase)
    (hkind : trap.kind ≠ .noError) {t : State} (ht : t = enterFaulted opcode trap (withLatches s s.pc ir op1 op2 st)) :
    keptByError s t ∧ t.err.pc = s.pc ∧ t.err.kind ≠ .noError := by
  subst ht
  exact ⟨⟨rfl, rfl, rfl, rfl, fun _ => rfl, rfl, rfl, rfl, rfl⟩, rfl, hkind⟩

/-- Settles O51: a step that newly enters FAULTED has taken an error of FETCH or DECODE, or one of an executed
instruction, which is precise because the stack of a good state has room. -/
theorem errorsArePrecise : Obligations.ErrorsArePrecise := by
  unfold Obligations.ErrorsArePrecise
  intro s t hgood hrun hstep hfaulted
  cases step_cases s t hstep with
  | terminal => exact absurd hfaulted hrun
  | error opcode trap ir op1 op2 st hphase hkind =>
    rw [hgood.instrAddress_eq hphase]
    exact enterFaulted_precise s opcode trap ir op1 op2 st (fetch_error_precise hkind).1 rfl
  | exec i ir op1 op2 st _ hphase hm hr hf ho =>
    rw [hgood.instrAddress_eq hphase] at ho
    rcases ho.end_cases hgood.stackEmpty.room with ⟨hst, -⟩ | ⟨rd, -, rfl⟩ | ⟨trap, hkind, -, ht⟩
    · simp [hfaulted] at hst
    · cases hfaulted
    · exact enterFaulted_precise s _ trap ir op1 op2 st hkind ht

/-! ### Input that has run out -/

/-- READ_IO on a source with no answer left takes InputUnavailable and writes nothing else, the cursor included
(R121, R174). -/
theorem exec_readIo_without_input (rd : Reg) (s : State) (hends : s.input.tail = .ends)
    (hused : s.input.answers.length ≤ s.inputPos) :
    ∃ t d, exec (.readIo rd) s = .next t ∧ errorIs .inputUnavailable s.iaddr (some s.ir) d t ∧ keptByError s t := by
  have hnone : inputAnswer s.input s.inputPos = none := (inputAnswer_eq_none _ _).2 ⟨hends, hused⟩
  obtain ⟨t, ht, herror⟩ := raiseInInstr_precise { kind := .inputUnavailable, detail := none } s rfl
  exact ⟨t, _, (execReadIo_exhausted rd s hnone).trans ht, herror⟩

/-- Settles O26: a step at READ_IO executes it on the latched state, which has the same source and cursor. -/
theorem readIoWithoutInput : Obligations.ReadIoWithoutInput := by
  unfold Obligations.ReadIoWithoutInput
  refine fun rd s hends hused => ⟨exec_readIo_without_input rd s hends hused, fun rest hst hdecode => ?_⟩
  rw [stepRunsDecodedInstruction s (.readIo rd) rest hst hdecode]
  exact exec_readIo_without_input rd (latched (.readIo rd) s) hends hused

/-! ### A stack without room -/

/-- An instruction that raises StackOverflow ends in FAULTED with that error at its address (R175, R176). -/
theorem stackOverflow_of_exec_raises {i : Instr} {s : State}
    (h : exec i s = raiseInInstr { kind := .stackOverflow, detail := none } s) :
    ∃ t d, exec i s = .next t ∧ errorIs .stackOverflow s.iaddr (some s.ir) d t :=
  ⟨_, _, h, raiseTrap_errorIs (some s.ir) { kind := .stackOverflow, detail := none } s⟩

/-- Settles O47: one save set (ADD) or two (SUB, ADDC) do not fit, so a push raises. -/
theorem stackOverflowInAdder : Obligations.StackOverflowInAdder := by
  unfold Obligations.StackOverflowInAdder
  refine fun rd rs s => ⟨fun hfull => ?_, fun hfull => ⟨?_, ?_⟩⟩
  · exact stackOverflow_of_exec_raises (execAdd_overflows rd rs s hfull)
  · exact stackOverflow_of_exec_raises (execSub_overflows rd rs s hfull)
  · exact stackOverflow_of_exec_raises (execAddc_overflows rd rs s hfull)

/-! ### Addition over two bytes -/

/-- The adder's carry and result byte together are the sum, nothing lost (R101). -/
theorem add8_exact (a b : Byte) : 256 * bitNat (add8 a b).flags.c + (add8 a b).r.toNat = a.toNat + b.toNat := by
  have ha := a.isLt
  have hb := b.isLt
  rw [add8_r_toNat]
  cases hc : (add8 a b).flags.c with
  | false =>
    have hsmall : ¬256 ≤ a.toNat + b.toNat := by simp [← add8_c_iff, hc]
    simp only [bitNat, Bool.false_eq_true, if_false]
    omega
  | true =>
    have hbig : 256 ≤ a.toNat + b.toNat := (add8_c_iff a b).1 hc
    simp only [bitNat, if_true]
    omega

/-- The carry-out of ADDC is that of the plain sum, without the carry-in (R108). -/
theorem addc8_c_iff (a b : Byte) (cin : Bool) : (addc8 a b cin).flags.c = true ↔ 256 ≤ a.toNat + b.toNat := by
  rw [addc8_flags, add8_c_iff]

/-- Settles O18: the low byte and its carry are the low sum, and the carry enters the high byte of the result but not
its carry-out, which misses it where the high sum alone is one short of 256. -/
theorem twoByteAddition : Obligations.TwoByteAddition := by
  unfold Obligations.TwoByteAddition
  intro aLo aHi bLo bHi lo hi sum
  have hlow : 256 * bitNat lo.flags.c + lo.r.toNat = aLo.toNat + bLo.toNat := add8_exact aLo bLo
  have hhigh : hi.r.toNat = (aHi.toNat + bHi.toNat + bitNat lo.flags.c) % 256 := addc8_r_toNat aHi bHi lo.flags.c
  have hsum : sum = 256 * (aHi.toNat + bHi.toNat + bitNat lo.flags.c) + lo.r.toNat := by omega
  have hbyte := lo.r.isLt
  refine ⟨by omega, ?_⟩
  rw [addc8_c_iff, ← bitNat_eq_one_iff lo.flags.c]
  have hbit : bitNat lo.flags.c ≤ 1 := by cases lo.flags.c <;> decide
  omega

end Sys2Proof.Machine
end
